-- ==== Sys2Proof/Word.lean ====
section
/-!
DEFINITION. The two word sizes of the block (spec/00_scope.md R7): a *byte* is an unsigned number 0 to 255, a
*word16* an unsigned number 0 to 65535. Nothing in the block is signed. Lengths and indices are `Nat`
(spec/20_memory.md R39).
-/

namespace Sys2Proof

/-- A byte: a stream byte, a register entry, an address or a length field (R5 `BYTE_W`, `ADDR_W`, `LEN_W`). -/
abbrev Byte := BitVec 8

/-- A 16-bit word: the CRC accumulator and the CRC itself (R5 `CRC_W`). -/
abbrev Word16 := BitVec 16

end Sys2Proof
end

