-- ==== Sys2Proof/Config.lean ====
section
/-!
DEFINITION. The block's parameters (spec/00_scope.md R5) in one place, as spec/93_implementation_defined.md U8 asks:
the literals are the source document's and unaudited (UNVERIFIED, notes/assumptions/13.md). `REGMAP_INIT`, the one
open parameter, is no constant here: it is the field `regmapInit` of State (notes/assumptions/2.md).
-/

namespace Sys2Proof.Config

/-- `MARKER0`, first byte of the start marker (R5, R47). -/
def marker0 : Byte := 0xAA
/-- `MARKER1`, second byte of the start marker (R5, R47). -/
def marker1 : Byte := 0x77
/-- `I_READ`: read register range, request and response (R5, R48). -/
def iRead : Byte := 0x03
/-- `I_WRITE`: write register range (R5, R48). -/
def iWrite : Byte := 0x04
/-- `I_FEEDBACK`: unsolicited feedback (R5, R48). -/
def iFeedback : Byte := 0x05
/-- `I_ALARM`: alarm (R5, R48). -/
def iAlarm : Byte := 0x08
/-- `CRC_POLY`, the x^16 term implicit (R5, R66). -/
def crcPoly : Word16 := 0x8005
/-- `CRC_INIT`, the accumulator's start value (R5, R66). -/
def crcInit : Word16 := 0xFFFF
/-- `CRC_XOROUT`, none (R5, R66; the spec's decision D3). -/
def crcXorOut : Word16 := 0x0000
/-- `ALARM_BUF_LEN`: buffered bytes of an alarm frame (R5, R88). -/
abbrev alarmBufLen : Nat := 4
/-- The buffered bytes of a `0x03` or `0x05` frame besides its data: `addr`, `len` and two CRC bytes (R92). -/
abbrev dataBufExtra : Nat := 4
/-- `REGMAP_N`: number of Register Map entries (R5, R11). -/
abbrev regMapSize : Nat := 256
/-- The most data bytes a frame carries, the largest value of the one-byte `len` (R5 `LEN_W`, R110). -/
abbrev maxData : Nat := 255
/-- `BUF_CAP`: capacity of the payload buffer (R5). -/
abbrev bufCap : Nat := 259
/-- `PREV_INIT`: reset value of the previous-byte register (R5, R26; the spec's decision D6). -/
def prevInit : Byte := 0x00

/-- The register names of spec/10_state.md R14, each with its first and last address. Data for the block's user: the
block interprets no address (R14, R45), and no definition of the model reads this table. Address 6 stands twice, as
in the document (spec/90_conflicts.md C3). -/
def regNames : List (String × Nat × Nat) :=
  [("device type", 0, 0), ("version", 1, 1), ("MAC", 2, 7), ("EEPROM size", 6, 6),
   ("device id / EEPROM base", 11, 11), ("baud rate", 12, 12), ("lever offset", 13, 16),
   ("EEPROM lock", 28, 28), ("offset calibration trigger", 29, 29), ("sorting command", 30, 30),
   ("button enable", 66, 66), ("feedback frequency", 67, 67), ("execution status", 68, 68),
   ("bin status", 69, 69)]

end Sys2Proof.Config
end

