-- ==== Sys2Proof/Machine/Crc.lean ====
section
/-!
DEFINITION. The CRC-16 unit (spec/40_crc16.md): pure functions of a byte sequence, with no state of their own
(R21, R73; notes/assumptions/7.md).
-/

namespace Sys2Proof.Machine

/-- `c[7:0]`, sent first as `crcLow` (R7, R32). -/
def lo8 (c : Word16) : Byte := c.setWidth 8

/-- `c[15:8]`, sent last as `crcHigh` (R7, R32). -/
def hi8 (c : Word16) : Byte := (c >>> 8).setWidth 8

/-- Bit `i` of the result is bit `7 - i` of `b` (R67). -/
def reflect8 (b : Byte) : Byte := b.reverse

/-- Bit `i` of the result is bit `15 - i` of `w` (R68). -/
def reflect16 (w : Word16) : Word16 := w.reverse

/-- Shift left by one and, if the bit shifted out was 1, XOR in the polynomial (R69). -/
def bitstep (a : Word16) : Word16 :=
  if a.getLsbD 15 then (a <<< 1) ^^^ Config.crcPoly else a <<< 1

/-- `n` bit steps in a row. -/
def bitsteps : Nat → Word16 → Word16
  | 0, a => a
  | n + 1, a => bitsteps n (bitstep a)

/-- XOR the reflected byte into the high half, then eight bit steps (R70). -/
def bytestep (a : Word16) (b : Byte) : Word16 :=
  bitsteps 8 (a ^^^ ((reflect8 b).setWidth 16 <<< 8))

/-- `acc(m)`, the accumulator after the bytes of `m` in sequence order (R72). -/
def crcAcc (m : List Byte) : Word16 := m.foldl bytestep Config.crcInit

/-- `CRC16(m)` (R73): the reflected accumulator, XORed with the final value (none, R71). -/
def crc16 (m : List Byte) : Word16 := reflect16 (crcAcc m) ^^^ Config.crcXorOut

/-- The bit step of the right-shifting form, with the reflected polynomial (R74). -/
def bitstepLsb (a : Word16) : Word16 :=
  if a.getLsbD 0 then (a >>> 1) ^^^ reflect16 Config.crcPoly else a >>> 1

/-- `n` bit steps of the right-shifting form. -/
def bitstepsLsb : Nat → Word16 → Word16
  | 0, a => a
  | n + 1, a => bitstepsLsb n (bitstepLsb a)

/-- The byte step of the right-shifting form: the byte enters the low half unreflected (R74). -/
def bytestepLsb (a : Word16) (b : Byte) : Word16 :=
  bitstepsLsb 8 (a ^^^ b.setWidth 16)

/-- `CRC16_lsb(m)`, the right-shifting form (R74). No meaning uses it: R73 is the normative form. -/
def crc16Lsb (m : List Byte) : Word16 := m.foldl bytestepLsb Config.crcInit

end Sys2Proof.Machine
end

