-- ==== Sys2Proof/Syntax.lean ====
section
/-!
DEFINITION. The block's instructions, its transactions and the direction of a frame. An instruction is a row of
spec/opcode_table.json (spec/30_encoding.md R55); a transaction is one of the six operations of spec/00_scope.md R6.
-/

namespace Sys2Proof

/-- One constructor per row of the opcode table. The rows a frame on the receive side can be carry the check bytes as
they arrived, right or wrong; the two rows the Frame Builder makes do not, since the builder computes them
(notes/assumptions/5.md). `len` of the format `RD` is the length of `data` (R53). -/
inductive Instr where
  /-- `RD_REQ`, format `RQ` (R49), built by BUILD_READ (R108): `len` counts registers asked for. -/
  | rdReq (addr len : Byte)
  /-- `RD_RSP`, format `RD` (R50), code `0x03` as the Frame Decoder receives it (R56, R86). -/
  | rdRsp (addr : Byte) (data : List Byte) (crcLow crcHigh : Byte)
  /-- `WR`, format `RD` (R50), code `0x04`, built by BUILD_WRITE (R109). -/
  | wr (addr : Byte) (data : List Byte)
  /-- `FB`, format `RD` (R50), code `0x05` (R87). -/
  | fb (addr : Byte) (data : List Byte) (crcLow crcHigh : Byte)
  /-- `ALARM`, format `AL` (R51), code `0x08` (R88). -/
  | alarm (level type : Byte) (crcLow crcHigh : Byte)
  /-- `UNKNOWN_RX`, no format: the byte after a marker is none of `0x03`, `0x05`, `0x08` (R57, R89). -/
  | unknownRx (code : Byte)
deriving DecidableEq, Repr

/-- The direction a frame travels. It is not encoded in the frame (R56), so a reader of bytes is told it. -/
inductive Direction where
  /-- device to host: what the Frame Decoder receives -/
  | toHost
  /-- host to device: what the Frame Builder makes -/
  | toDevice
deriving DecidableEq, Repr

/-- The direction of each row of the opcode table (R55). -/
def Instr.direction : Instr → Direction
  | .rdReq _ _ => .toDevice
  | .rdRsp _ _ _ _ => .toHost
  | .wr _ _ => .toDevice
  | .fb _ _ _ _ => .toHost
  | .alarm _ _ _ _ => .toHost
  | .unknownRx _ => .toHost

/-- The six atomic transactions the environment performs on the block (R6). The argument types make a FEED of a
non-byte and a REG_READ outside 0..255 impossible to write (spec/93_implementation_defined.md U3, U5). -/
inductive Txn where
  /-- `FEED(b)` (R80) -/
  | feed (b : Byte)
  /-- `REG_READ(a)` (R13) -/
  | regRead (a : Byte)
  /-- `CRC16(m)` (R73) -/
  | crc16 (m : List Byte)
  /-- `BUILD_READ(addr, len)` (R108) -/
  | buildRead (addr len : Byte)
  /-- `BUILD_WRITE(addr, data)` (R109) -/
  | buildWrite (addr : Byte) (data : List Byte)
  /-- `RESET` (R132) -/
  | reset
deriving DecidableEq, Repr

end Sys2Proof
end

