-- ==== Sys2Proof/Machine/Operands.lean ====
section
/-!
DEFINITION. How the operands of a frame stand in its bytes (spec/30_encoding.md R46 to R53): the bytes before the
check field, and the assembly that appends the check bytes (spec/42_frame_builder.md R107). Every operand form the
block has is one whole unsigned byte or a run of them (R53).
-/

namespace Sys2Proof.Machine

/-- The two marker bytes and the instruction, which open every frame (R46, R47). -/
def frameHead (code : Byte) : List Byte := [Config.marker0, Config.marker1, code]

/-- The `len` byte of a run of data: the number of bytes that follow (R50, R53). -/
def lenByte (data : List Byte) : Byte := BitVec.ofNat 8 data.length

/-- A frame of format `RD` before its check field (R50). -/
def dataHeader (code addr : Byte) (data : List Byte) : List Byte :=
  frameHead code ++ addr :: lenByte data :: data

/-- A frame of format `AL` before its check field (R51). -/
def alarmHeader (level type : Byte) : List Byte :=
  frameHead Config.iAlarm ++ [level, type]

/-- A frame of format `RQ` before its check field (R49). -/
def requestHeader (addr len : Byte) : List Byte :=
  frameHead Config.iRead ++ [addr, len]

/-- The two check bytes of `h`, low byte first (R32, R52, R75). -/
def checkBytes (h : List Byte) : List Byte := [lo8 (crc16 h), hi8 (crc16 h)]

/-- `assemble(h)`: the header, unaltered, then its check bytes (R107, R58). -/
def assemble (h : List Byte) : List Byte := h ++ checkBytes h

/-- `RD_RSP addr, [data]` in the notation of R61: the response frame with its correct CRC. -/
def rdRspFrame (addr : Byte) (data : List Byte) : Instr :=
  .rdRsp addr data (lo8 (crc16 (dataHeader Config.iRead addr data))) (hi8 (crc16 (dataHeader Config.iRead addr data)))

/-- `FB addr, [data]` in the notation of R61: the feedback frame with its correct CRC. -/
def fbFrame (addr : Byte) (data : List Byte) : Instr :=
  .fb addr data (lo8 (crc16 (dataHeader Config.iFeedback addr data)))
    (hi8 (crc16 (dataHeader Config.iFeedback addr data)))

/-- `ALARM level, type` in the notation of R61: the alarm frame with its correct CRC. -/
def alarmFrame (level type : Byte) : Instr :=
  .alarm level type (lo8 (crc16 (alarmHeader level type))) (hi8 (crc16 (alarmHeader level type)))

end Sys2Proof.Machine
end

