-- ==== Sys2Proof/Machine/State.lean ====
section
/-!
DEFINITION. The state of one instance of the block (spec/10_state.md R10, R28), the environment's side of its
transactions, the reasons a step can stop, and the state after reset (R26). Plain data throughout. The CRC accumulator
of R10 is no field: R10 lets a model make CRC16 a pure function (notes/assumptions/7.md).
-/

namespace Sys2Proof.Machine

/-- The Register Map as (address, byte) pairs in one canonical form (`Memory.wf`, Machine/Ops.lean). -/
abbrev Memory := List Host.Cell

/-- What an unlisted address reads as: `0x00`, the instance of `REGMAP_INIT` that R26 recommends (DESIGN CHOICE,
notes/assumptions/3.md). -/
def unlistedByte : Byte := 0x00

/-- The decoder state (R15 to R19): "an explicit struct/record owned by one Frame Decoder instance" (R28). It "Lives
only for the duration of assembling one frame; reset after each completed or rejected frame"
(spec/70_reset_and_hazards.md R131): `State.framingReset` in `completeFrame` and `discard` (Machine/Ops.lean). -/
structure Decoder where
  /-- False: hunting for the start marker. True: assembling a frame (R15). -/
  synced : Bool
  /-- The instruction code of the frame being assembled (R16). -/
  instruction : Option Byte
  /-- Every byte fed after the instruction byte, check bytes included (R17). -/
  payloadBuf : List Byte
  /-- The number of buffered bytes that completes the frame (R18), a natural number (spec/20_memory.md R39). -/
  expectedLen : Option Nat
  /-- The argument of the most recent FEED (R19). -/
  prev : Byte
deriving DecidableEq, Repr

/-- A decoder that hunts, its previous byte given: what the framing reset leaves (spec/41_frame_decoder.md R101) after
every completed or rejected frame (spec/70_reset_and_hazards.md R131), and RESET with `prev` at its initial value. -/
def Decoder.hunting (prev : Byte) : Decoder :=
  { synced := false, instruction := none, payloadBuf := [], expectedLen := none, prev := prev }

/-- The `DecodedEvent` a FEED returns when its byte completes a valid frame (R23). -/
inductive Event where
  /-- a valid frame with code `0x03` -/
  | readResponse (addr : Byte) (data : List Byte)
  /-- a valid frame with code `0x05` -/
  | feedback (addr : Byte) (data : List Byte)
  /-- a valid frame with code `0x08` -/
  | alarm (level type : Byte)
deriving DecidableEq, Repr

/-- What a transaction returns to the environment (spec/00_scope.md R6). -/
inductive Result where
  /-- FEED: `None` or one event -/
  | fed (event : Option Event)
  /-- REG_READ: the byte `x[a]` -/
  | value (v : Byte)
  /-- CRC16: a 16-bit value -/
  | crc (c : Word16)
  /-- BUILD_READ and BUILD_WRITE: the frame, index 0 first -/
  | frame (bytes : List Byte)
  /-- RESET: nothing -/
  | resetDone
deriving DecidableEq, Repr

/-- One instance of the block (`regMap`, `dec`), the instance of the parameter `REGMAP_INIT`, and the environment's
side of the transactions, which is no state of the block (R23, R27; notes/assumptions/1.md). -/
structure State where
  /-- The Register Map `x` (R11): "persisted for the process lifetime" (spec/70_reset_and_hazards.md R131), which is
  from one RESET to the next (R132). Only `State.commit` and `resetBlock` change it. -/
  regMap : Memory
  /-- The decoder state (R15 to R19). -/
  dec : Decoder
  /-- MODEL'S OWN: the instance of `REGMAP_INIT` that RESET restores (R26, spec/70_reset_and_hazards.md R132). No step
  changes it (notes/assumptions/2.md). -/
  regmapInit : Memory
  /-- MODEL'S OWN: the transactions the environment has yet to perform, in their total order (spec/20_memory.md R40). -/
  todo : List Txn
  /-- MODEL'S OWN: what the transactions so far returned, oldest first. -/
  results : List Result
deriving DecidableEq, Repr

/-- Why the machine stops with a fault. -/
inductive Fault where
  /-- Raised by a FEED that finds a buffer complete whose bytes are no frame, which takes a decoder state that breaks
  R25; spec/41_frame_decoder.md R105 defines FEED only for states that satisfy R25. SAFE: no step leads from a state
  that satisfies R25 to one that does not (notes/assumptions/8.md). -/
  | decoderStateIllFormed
deriving DecidableEq, Repr

/-- Why the machine refuses. -/
inductive Refusal where
  /-- Raised by an arm of `exec` whose instruction has no meaning yet. SAFE. No arm of this model raises it. -/
  | notModelled (mnemonic : String)
  /-- Raised by BUILD_WRITE with more than 255 data bytes, which "a model refuses" (spec/42_frame_builder.md R110).
  SAFE: it produces no bytes (notes/assumptions/9.md). -/
  | writeTooLong
deriving DecidableEq, Repr

/-- The machine right after reset with the given `REGMAP_INIT` (R26), with no transaction to perform. -/
def State.resetWith (init : Memory) : State :=
  { regMap := init, dec := Decoder.hunting Config.prevInit, regmapInit := init, todo := [], results := [] }

/-- The machine right after reset (R26), with the instance of `REGMAP_INIT` that R26 recommends: every entry `0x00`,
so that nothing is listed (DESIGN CHOICE, notes/assumptions/2.md). -/
def State.reset : State := State.resetWith []

end Sys2Proof.Machine
end

