-- ==== Sys2Proof/Machine/Flags.lean ====
section
/-!
DEFINITION. The block has no condition codes, status flags or sticky bits (spec/10_state.md R22). What stands in their
place: the validator's verdict (spec/40_crc16.md R75, R76) and the decoder's position in a frame, the derived value
`phase` (spec/10_state.md R20).
-/

namespace Sys2Proof.Machine

/-- The validator's verdict on received check bytes: both must equal those of the recomputed CRC (R75,
spec/41_frame_decoder.md R95). -/
def verdict (h : List Byte) (crcLow crcHigh : Byte) : Bool :=
  crcLow == lo8 (crc16 h) && crcHigh == hi8 (crc16 h)

/-- The decoder's position in a frame (R20). -/
inductive Phase where
  | hunt
  | instr
  | head
  | body
  | alarm
deriving DecidableEq, Repr

/-- The phase, a function of `synced`, `instruction` and the length of `payloadBuf` (R20). -/
def phase (d : Decoder) : Phase :=
  if d.synced = false then .hunt
  else
    match d.instruction with
    | none => .instr
    | some c =>
      if c = Config.iAlarm then .alarm
      else if d.payloadBuf.length < 2 then .head
      else .body

/-- The value R25 item 4 gives `expectedLen`, from the instruction and the buffer (R18, R88, R92). -/
def expectedLenOf (instruction : Option Byte) (buf : List Byte) : Option Nat :=
  match instruction with
  | none => none
  | some c =>
    if c = Config.iAlarm then some Config.alarmBufLen
    else
      match buf with
      | _ :: len :: _ => some (len.toNat + Config.dataBufExtra)
      | _ => none

/-- The buffer is not yet complete (R25 item 5). -/
def belowExpected (expected : Option Nat) (n : Nat) : Bool :=
  match expected with
  | none => true
  | some e => decide (n < e)

/-- `instruction` is one of `none`, `0x03`, `0x05` and `0x08` (R25 item 3). -/
def legalInstruction (instruction : Option Byte) : Bool :=
  match instruction with
  | none => true
  | some c => c == Config.iRead || c == Config.iFeedback || c == Config.iAlarm

/-- The invariants R25 items 1 to 6 of a decoder state between transactions. -/
def Decoder.wf (d : Decoder) : Bool :=
  (d.instruction == none || d.synced)
    && (d.payloadBuf == [] || d.instruction != none)
    && legalInstruction d.instruction
    && d.expectedLen == expectedLenOf d.instruction d.payloadBuf
    && belowExpected d.expectedLen d.payloadBuf.length
    && decide (d.payloadBuf.length < Config.bufCap)

end Sys2Proof.Machine
end

