-- ==== Sys2Proof/Machine/Ops.lean ====
section
/-!
DEFINITION. The named operations over the Register Map and the decoder state: reading and writing entries
(spec/20_memory.md R37, spec/00_scope.md R7), returning a result, the framing reset, the discard procedure (the block's
analogue of taking an exception, spec/60_exceptions.md R121; it has no return, R125), and the completion of a frame.
-/

namespace Sys2Proof.Machine

/-- `x[a]` (R7). -/
def Memory.read : Memory → Nat → Byte
  | [], _ => unlistedByte
  | (a', v) :: m, a => if a' = a then v else Memory.read m a

/-- A cell put before `m`, or nothing where its byte is what an unlisted address reads as. -/
def Memory.consCell (a : Nat) (v : Byte) (m : Memory) : Memory :=
  if v = unlistedByte then m else (a, v) :: m

/-- `x[a] <- v` (R7), keeping the canonical form. -/
def Memory.write : Memory → Nat → Byte → Memory
  | [], a, v => Memory.consCell a v []
  | (a', v') :: m, a, v =>
    if a < a' then Memory.consCell a v ((a', v') :: m)
    else if a = a' then Memory.consCell a v m
    else (a', v') :: Memory.write m a v

/-- `MemWrite(addr, n, v)` (R7, R37): byte `i` goes to `addr + i`, a natural number, and is dropped past 255. -/
def memWrite : Memory → Nat → List Byte → Memory
  | m, _, [] => m
  | m, a, v :: vs => memWrite (if a < Config.regMapSize then m.write a v else m) (a + 1) vs

/-- `MemRead(addr, n)` (R7): the entries from `addr` on, restricted to indices at most 255. -/
def memRead (m : Memory) : Nat → Nat → List Byte
  | _, 0 => []
  | a, n + 1 => if a < Config.regMapSize then m.read a :: memRead m (a + 1) n else memRead m (a + 1) n

/-- The canonical form from address `lo` on: addresses strictly rising and inside the map, and no byte equal to what
an unlisted address reads as. -/
def Memory.wfFrom : Nat → Memory → Bool
  | _, [] => true
  | lo, (a, v) :: m =>
    decide (lo ≤ a) && decide (a < Config.regMapSize) && v != unlistedByte && Memory.wfFrom (a + 1) m

/-- The canonical form of a Register Map. -/
def Memory.wf (m : Memory) : Bool := Memory.wfFrom 0 m

/-- A transaction's return value, handed to the environment (spec/10_state.md R23). -/
def State.emit (s : State) (r : Result) : State := { s with results := s.results ++ [r] }

/-- The framing reset (spec/41_frame_decoder.md R101): four assignments; `prev` is not touched (R82). It ends the
lifetime of the decoder state with each completed or rejected frame (spec/70_reset_and_hazards.md R131). -/
def State.framingReset (s : State) : State := { s with dec := Decoder.hunting s.dec.prev }

/-- The commit of a valid `0x03` or `0x05` frame (R98): the range update of R37. Beside RESET nothing else changes the
Register Map, which persists (spec/70_reset_and_hazards.md R131, R132). -/
def State.commit (s : State) (addr : Byte) (data : List Byte) : State :=
  { s with regMap := memWrite s.regMap addr.toNat data }

/-- The two causes of a discard (spec/60_exceptions.md R117, R118). A cause is not stored anywhere (R121). -/
inductive Cause where
  | framingError
  | checksumError
deriving DecidableEq, Repr

/-- The discard procedure, `raise Discard(cause)` (R121): the framing reset, and the FEED returns `None`. It saves
nothing, and the cause is dropped. -/
def discard (_cause : Cause) (s : State) : Host.Outcome State Fault Refusal :=
  .next (s.framingReset.emit (.fed none))

/-- The end of a complete frame with header `h` (spec/41_frame_decoder.md R94 to R101): the checksum test first; on a
match the update `accept`, then the framing reset, then the event (R100, spec/60_exceptions.md R124); on a mismatch the
discard (R96), since such bytes are no frame (spec/30_encoding.md R60). Either way the decoder is reset
(spec/70_reset_and_hazards.md R131). -/
def completeFrame (h : List Byte) (crcLow crcHigh : Byte) (accept : State → State) (event : Event) (s : State) :
    Host.Outcome State Fault Refusal :=
  if verdict h crcLow crcHigh then .next ((accept s).framingReset.emit (.fed (some event)))
  else discard .checksumError s

end Sys2Proof.Machine
end

