-- ==== Sys2Proof/Machine/FrameBuilder.lean ====
section
/-!
DEFINITION. The Frame Builder (spec/42_frame_builder.md R106 to R110): a frame is returned and no state changes (R112).
-/

namespace Sys2Proof.Machine

/-- `RD_REQ`, `BUILD_READ(addr, len)` (R108): every pair of bytes is accepted. -/
def execRdReq (addr len : Byte) (s : State) : Host.Outcome State Fault Refusal :=
  .next (s.emit (.frame (assemble (requestHeader addr len))))

/-- `WR`, `BUILD_WRITE(addr, data)` (R109); beyond 255 data bytes "a model refuses the call and produces no bytes"
(R110). -/
def execWr (addr : Byte) (data : List Byte) (s : State) : Host.Outcome State Fault Refusal :=
  if data.length ≤ Config.maxData then .next (s.emit (.frame (assemble (dataHeader Config.iWrite addr data))))
  else .refused .writeTooLong

end Sys2Proof.Machine
end

