-- ==== Sys2Proof/Machine/FrameDecoder.lean ====
section
/-!
DEFINITION. What the Frame Decoder does with a complete frame of each row (spec/41_frame_decoder.md R86 to R89): the
part of the FEED of the frame's last byte that follows the completion test (R94 to R101), and, for an unknown
instruction, the FEED of the instruction byte (R89). The state they are given has `prev` and `payloadBuf` already
updated with that byte (R82, R90).
-/

namespace Sys2Proof.Machine

/-- `RD_RSP` (R86): a valid frame writes the Register Map (R98) and returns `ReadResponse` (R97). -/
def execRdRsp (addr : Byte) (data : List Byte) (crcLow crcHigh : Byte) (s : State) :
    Host.Outcome State Fault Refusal :=
  completeFrame (dataHeader Config.iRead addr data) crcLow crcHigh (fun t => t.commit addr data)
    (.readResponse addr data) s

/-- `FB` (R87): as `RD_RSP`, with `Feedback`. -/
def execFb (addr : Byte) (data : List Byte) (crcLow crcHigh : Byte) (s : State) :
    Host.Outcome State Fault Refusal :=
  completeFrame (dataHeader Config.iFeedback addr data) crcLow crcHigh (fun t => t.commit addr data)
    (.feedback addr data) s

/-- `ALARM` (R88, R99): a valid frame returns `Alarm` and writes nothing. -/
def execAlarm (level type crcLow crcHigh : Byte) (s : State) : Host.Outcome State Fault Refusal :=
  completeFrame (alarmHeader level type) crcLow crcHigh (fun t => t) (.alarm level type) s

/-- `UNKNOWN_RX` (R89): the silent framing error. The byte itself is not stored. -/
def execUnknownRx (_code : Byte) (s : State) : Host.Outcome State Fault Refusal :=
  discard .framingError s

end Sys2Proof.Machine
end

