-- ==== Sys2Proof/Machine/Dispatch.lean ====
section
/-!
DEFINITION. One arm per instruction of spec/opcode_table.json.
-/

namespace Sys2Proof.Machine

def exec (i : Instr) (s : State) : Host.Outcome State Fault Refusal :=
  match i with
  | .rdReq addr len => Sys2Proof.Machine.execRdReq addr len s
  | .rdRsp addr data crcLow crcHigh => Sys2Proof.Machine.execRdRsp addr data crcLow crcHigh s
  | .wr addr data => Sys2Proof.Machine.execWr addr data s
  | .fb addr data crcLow crcHigh => Sys2Proof.Machine.execFb addr data crcLow crcHigh s
  | .alarm level type crcLow crcHigh => Sys2Proof.Machine.execAlarm level type crcLow crcHigh s
  | .unknownRx code => Sys2Proof.Machine.execUnknownRx code s

end Sys2Proof.Machine
end

