-- ==== Sys2Proof/WellFormed.lean ====
section
/-!
DEFINITION. Which terms of `Instr` are instructions: `data` fits the one-byte `len` (spec/30_encoding.md R50,
spec/42_frame_builder.md R110), and the byte of an unknown instruction is none of the three codes the Frame Decoder
accepts (R57).
-/

namespace Sys2Proof

/-- The three codes the Frame Decoder accepts (R57, R85). -/
def acceptedCode (c : Byte) : Bool :=
  c == Config.iRead || c == Config.iFeedback || c == Config.iAlarm

/-- `data` fits the length field: at most 255 bytes (R50, R110). -/
def dataFits (data : List Byte) : Bool :=
  decide (data.length ≤ Config.maxData)

/-- Every operand is one the encoding admits. -/
def Instr.wf : Instr → Bool
  | .rdReq _ _ => true
  | .rdRsp _ data _ _ => dataFits data
  | .wr _ data => dataFits data
  | .fb _ data _ _ => dataFits data
  | .alarm _ _ _ _ => true
  | .unknownRx code => !acceptedCode code

end Sys2Proof
end

