-- ==== Sys2Proof/Decode.lean ====
section
/-!
DEFINITION. Reading a frame from bytes and writing one (spec/30_encoding.md R46 to R57). The direction is not encoded
in a frame (R56), so `decode` is told it. The check bytes are operands of a received row, tested by its meaning
(spec/41_frame_decoder.md R95), and no operands of a row the host sends (notes/assumptions/5.md).
-/

namespace Sys2Proof

open Machine

/-- Why bytes are no frame, by name. -/
inductive DecodeError where
  /-- the bytes do not open with the marker `0xAA 0x77` (R47) -/
  | noMarker
  /-- the bytes end before the frame does (R54) -/
  | truncated
  /-- host to device only: the code is neither `0x03` nor `0x04`, the two the Frame Builder emits (R57) -/
  | notACommand
deriving DecidableEq, Repr

/-- The rest of a frame of format `RD`, after its instruction byte (R50, R54): `addr`, `len`, `len` data bytes and two
check bytes, which `mk` receives; then whatever follows the frame. -/
def decodeData (mk : Byte → List Byte → Byte → Byte → Instr) :
    List Byte → Except DecodeError (Instr × List Byte)
  | addr :: len :: tail =>
    match tail.drop len.toNat with
    | crcLow :: crcHigh :: rest => .ok (mk addr (tail.take len.toNat) crcLow crcHigh, rest)
    | _ => .error .truncated
  | _ => .error .truncated

/-- The rest of a frame of format `AL` (R51). -/
def decodeAlarm : List Byte → Except DecodeError (Instr × List Byte)
  | level :: type :: crcLow :: crcHigh :: rest => .ok (.alarm level type crcLow crcHigh, rest)
  | _ => .error .truncated

/-- The rest of a frame of format `RQ` (R49). -/
def decodeRequest : List Byte → Except DecodeError (Instr × List Byte)
  | addr :: len :: _ :: _ :: rest => .ok (.rdReq addr len, rest)
  | _ => .error .truncated

/-- Dispatch on the instruction byte of a received frame (R55, R57, R85): every value has a row, and `0x03` is
always the response (R56). -/
def decodeRx (code : Byte) (rest : List Byte) : Except DecodeError (Instr × List Byte) :=
  if code = Config.iRead then decodeData .rdRsp rest
  else if code = Config.iFeedback then decodeData .fb rest
  else if code = Config.iAlarm then decodeAlarm rest
  else .ok (.unknownRx code, rest)

/-- Dispatch on the instruction byte of a frame the host sends (R48, R57). -/
def decodeTx (code : Byte) (rest : List Byte) : Except DecodeError (Instr × List Byte) :=
  if code = Config.iRead then decodeRequest rest
  else if code = Config.iWrite then decodeData (fun addr data _ _ => .wr addr data) rest
  else .error .notACommand

/-- The frame at the head of `bytes` and what follows it. -/
def decode (dir : Direction) : List Byte → Except DecodeError (Instr × List Byte)
  | m0 :: m1 :: code :: rest =>
    if m0 = Config.marker0 ∧ m1 = Config.marker1 then
      match dir with
      | .toHost => decodeRx code rest
      | .toDevice => decodeTx code rest
    else .error .noMarker
  | _ => .error .truncated

/-- The bytes of an instruction in wire order (R46, R49, R50, R51). Of an unknown instruction only the three bytes
that decide it are known (R54, R57). -/
def encode : Instr → List Byte
  | .rdReq addr len => assemble (requestHeader addr len)
  | .rdRsp addr data crcLow crcHigh => dataHeader Config.iRead addr data ++ [crcLow, crcHigh]
  | .wr addr data => assemble (dataHeader Config.iWrite addr data)
  | .fb addr data crcLow crcHigh => dataHeader Config.iFeedback addr data ++ [crcLow, crcHigh]
  | .alarm level type crcLow crcHigh => alarmHeader level type ++ [crcLow, crcHigh]
  | .unknownRx code => frameHead code

/-- Byte `i` of an `n`-byte number, byte 0 most significant. -/
def byteOfNat (n w i : Nat) : Byte := BitVec.ofNat 8 (w / 2 ^ (8 * (n - 1 - i)))

/-- The bytes of a table word, byte 0 first. The table reads "bytes 0..2 of the frame as a 24-bit number, byte 0 most
significant" (R55); where that order does not open with the marker, the other end is taken as byte 0
(notes/assumptions/6.md). -/
def tableBytes (nbits w : Nat) : List Byte :=
  let n := nbits / 8
  let msf := (List.range n).map (byteOfNat n w)
  if msf.take 2 = [Config.marker0, Config.marker1] then msf else msf.reverse

/-- The longest frame, in bytes (R54). -/
def maxFrame : Nat := 262

/-- A table word's bytes with zeros after them, up to the longest frame. -/
def tableFrame (nbits w : Nat) : List Byte :=
  tableBytes nbits w ++ List.replicate (maxFrame - nbits / 8) 0

/-- The instruction a table word stands for: read as a received frame, but for the code `0x04`, which is sent to the
device only (R48, R57) and read in that direction (notes/assumptions/6.md). -/
def decodeTableWord (nbits w : Nat) : Option Instr :=
  let bytes := tableFrame nbits w
  match decode (if bytes.getD 2 0 = Config.iWrite then .toDevice else .toHost) bytes with
  | .ok (i, _) => some i
  | .error _ => none

end Sys2Proof
end

