-- ==== Sys2Proof/Machine/Fetch.lean ====
section
/-!
DEFINITION. One transaction up to the instruction it runs, if it runs one. FEED is spec/41_frame_decoder.md R81: its
hunting, dispatch and buffering happen here, and the byte that completes an instruction leads to that instruction,
decoded from the bytes received (R94). BUILD_READ and BUILD_WRITE are the instructions `RD_REQ` and `WR`. REG_READ,
CRC16 and RESET run no instruction and are complete here.
-/

namespace Sys2Proof.Machine

/-- What one transaction comes to: it is done, or it runs an instruction on a state. -/
inductive Fetched where
  | done (o : Host.Outcome State Fault Refusal)
  | run (i : Instr) (s : State)

/-- A FEED that returns `None` and leaves the decoder state `d`. -/
def quiet (d : Decoder) (s : State) : Fetched := .done (.next ({ s with dec := d }.emit (.fed none)))

/-- The instruction that the received bytes are, all of them. -/
def runReceived (bytes : List Byte) (s : State) : Fetched :=
  match decode .toHost bytes with
  | .ok (i, []) => .run i s
  | _ => .done (.fault .decoderStateIllFormed)

/-- FEED in phase HUNT (R83, R84); `p` is the byte before `b`. -/
def feedHunt (p b : Byte) (d : Decoder) (s : State) : Fetched :=
  if p = Config.marker0 ∧ b = Config.marker1 then quiet { d with synced := true } s else quiet d s

/-- FEED in phase INSTR (R85 to R89). -/
def feedInstr (b : Byte) (d : Decoder) (s : State) : Fetched :=
  if b = Config.iRead ∨ b = Config.iFeedback then quiet { d with instruction := some b } s
  else if b = Config.iAlarm then
    quiet { d with instruction := some b, expectedLen := some Config.alarmBufLen } s
  else runReceived (frameHead b) { s with dec := d }

/-- `expectedLen` after the byte that makes the buffer `buf` (R92): set when `len` has just arrived. -/
def nextExpected (code : Byte) (buf : List Byte) (expected : Option Nat) : Option Nat :=
  if (code = Config.iRead ∨ code = Config.iFeedback) ∧ buf.length = 2 then
    some ((buf.getD 1 0).toNat + Config.dataBufExtra)
  else expected

/-- FEED in phases HEAD, BODY and ALARM (R90 to R94): append, then the completion test. Nothing but the length ends the
frame: no marker (R91), no timeout (R103). -/
def feedPayload (code b : Byte) (d : Decoder) (s : State) : Fetched :=
  let buf := d.payloadBuf ++ [b]
  let expected := nextExpected code buf d.expectedLen
  let d' := { d with payloadBuf := buf, expectedLen := expected }
  if expected = some buf.length then runReceived (frameHead code ++ buf) { s with dec := d' } else quiet d' s

/-- `FEED(b)` (R81). Every FEED sets `prev` first (R82). -/
def feed (b : Byte) (s : State) : Fetched :=
  let d := { s.dec with prev := b }
  if s.dec.synced = false then feedHunt s.dec.prev b d s
  else
    match s.dec.instruction with
    | none => feedInstr b d s
    | some code => feedPayload code b d s

/-- `REG_READ(a)` (spec/10_state.md R13): returns `x[a]` and changes nothing. -/
def regRead (a : Byte) (s : State) : Host.Outcome State Fault Refusal :=
  .next (s.emit (.value (s.regMap.read a.toNat)))

/-- `CRC16(m)` (spec/40_crc16.md R73): changes nothing. -/
def crcOf (m : List Byte) (s : State) : Host.Outcome State Fault Refusal :=
  .next (s.emit (.crc (crc16 m)))

/-- `RESET` (spec/70_reset_and_hazards.md R132): every item of the block's state at its reset value. It ends the
"process lifetime" of the Register Map (R131), and leaves nothing for software to initialise (R134). -/
def resetBlock (s : State) : Host.Outcome State Fault Refusal :=
  .next ({ s with regMap := s.regmapInit, dec := Decoder.hunting Config.prevInit }.emit .resetDone)

/-- One transaction (spec/00_scope.md R6). -/
def transact : Txn → State → Fetched
  | .feed b, s => feed b s
  | .regRead a, s => .done (regRead a s)
  | .crc16 m, s => .done (crcOf m s)
  | .buildRead addr len, s => .run (.rdReq addr len) s
  | .buildWrite addr data, s => .run (.wr addr data) s
  | .reset, s => .done (resetBlock s)

/-- The environment's next transaction, taken off `todo`. With none to perform the block "does nothing" and holds its
state (spec/60_exceptions.md R129; notes/assumptions/10.md). -/
def fetch (s : State) : Fetched :=
  match s.todo with
  | [] => .done (.next s)
  | t :: rest => transact t { s with todo := rest }

/-- The decoder state and the transaction with which the block runs exactly `i` next. For the two rows the builder
makes: its transaction, the decoder as it is. For a received row: the decoder one byte short of the frame, which is
where hunting and then feeding every byte of `encode i` but the last leads, and the FEED of that last byte. -/
def awaiting (i : Instr) (d : Decoder) : Decoder × Txn :=
  match i with
  | .rdReq addr len => (d, .buildRead addr len)
  | .rdRsp addr data crcLow crcHigh =>
    ({ synced := true, instruction := some Config.iRead, payloadBuf := addr :: lenByte data :: data ++ [crcLow],
       expectedLen := some (data.length + Config.dataBufExtra), prev := crcLow }, .feed crcHigh)
  | .wr addr data => (d, .buildWrite addr data)
  | .fb addr data crcLow crcHigh =>
    ({ synced := true, instruction := some Config.iFeedback, payloadBuf := addr :: lenByte data :: data ++ [crcLow],
       expectedLen := some (data.length + Config.dataBufExtra), prev := crcLow }, .feed crcHigh)
  | .alarm level type crcLow crcHigh =>
    ({ synced := true, instruction := some Config.iAlarm, payloadBuf := [level, type, crcLow],
       expectedLen := some Config.alarmBufLen, prev := crcLow }, .feed crcHigh)
  | .unknownRx code =>
    ({ synced := true, instruction := none, payloadBuf := [], expectedLen := none, prev := Config.marker1 }, .feed code)

/-- `s` with the environment about to make the block run exactly `i` (notes/assumptions/1.md). -/
def placeInstr (i : Instr) (s : State) : State :=
  { s with dec := (awaiting i s.dec).1, todo := (awaiting i s.dec).2 :: s.todo }

/-- `s` with the table word's instruction about to run (notes/assumptions/6.md); a word that is no frame is a run of
bytes to be fed. -/
def placeTableWord (s : State) (nbits w : Nat) : State :=
  match decodeTableWord nbits w with
  | some i => placeInstr i s
  | none => { s with todo := (tableBytes nbits w).map .feed ++ s.todo }

end Sys2Proof.Machine
end

