-- ==== Sys2Proof/Machine/Step.lean ====
section
/-!
DEFINITION. One step is one transaction (spec/20_memory.md R40, spec/00_scope.md R6): what `fetch` finds is done, or
runs the instruction it leads to.
-/

namespace Sys2Proof.Machine

/-- The outcome of a transaction: its own, or that of the instruction it leads to. -/
def finish : Fetched → Host.Outcome State Fault Refusal
  | .done o => o
  | .run i t => exec i t

/-- One transaction of the environment, performed whole. -/
def step (s : State) : Host.Outcome State Fault Refusal := finish (fetch s)

/-- `s` with the table word's instruction about to be run by the next step. -/
def State.withFetchWord (s : State) (nbits w : Nat) : State := placeTableWord s nbits w

end Sys2Proof.Machine
end

