-- ==== Sys2Proof/Safety.lean ====
section
/-!
DEFINITION. What the statements mean by a legal state and by a run: the invariants of spec/10_state.md R25 with the
Register Map in its canonical form, and runs of many transactions.
-/

namespace Sys2Proof.Machine

/-- A state between transactions (R25): the decoder state is legal, and the Register Map and the instance of
`REGMAP_INIT` are in canonical form. Nothing is asked of `todo`: the received bytes are any (U10). -/
def State.inv (s : State) : Bool := s.regMap.wf && s.regmapInit.wf && s.dec.wf

/-- The decoder hunts for the start marker (R15). -/
def State.isHunting (s : State) : Bool := s.dec.synced == false

/-- `k` transactions, one after another, stopping at the first fault or refusal (as the host's `Core.run`). -/
def runs : Nat → State → Host.Outcome State Fault Refusal
  | 0, s => .next s
  | k + 1, s =>
    match step s with
    | .next t => runs k t
    | .fault r => .fault r
    | .refused r => .refused r

/-- The state an outcome goes on with, if it goes on. -/
def next? : Host.Outcome State Fault Refusal → Option State
  | .next s => some s
  | .fault _ => none
  | .refused _ => none

/-- The event of a received frame whose check bytes are right (spec/41_frame_decoder.md R97, R99); none of one whose
check bytes are wrong, of an unknown instruction, or of a frame the host sends. -/
def frameEvent : Instr → Option Event
  | .rdReq _ _ => none
  | .rdRsp addr data lo hi =>
    if verdict (dataHeader Config.iRead addr data) lo hi then some (.readResponse addr data) else none
  | .wr _ _ => none
  | .fb addr data lo hi =>
    if verdict (dataHeader Config.iFeedback addr data) lo hi then some (.feedback addr data) else none
  | .alarm level type lo hi =>
    if verdict (alarmHeader level type) lo hi then some (.alarm level type) else none
  | .unknownRx _ => none

/-- The environment feeds these bytes, one after another (spec/41_frame_decoder.md R80). -/
def feeds (bytes : List Byte) : List Txn := bytes.map Txn.feed

/-- The adjacent pair `0xAA 0x77` occurs in the bytes (spec/70_reset_and_hazards.md R136). -/
def hasMarker : List Byte → Bool
  | a :: b :: rest => (a == Config.marker0 && b == Config.marker1) || hasMarker (b :: rest)
  | _ => false

/-- The bytes of the transmit stream (spec/20_memory.md R30): the frames built so far, in order (R111). -/
def txStream : List Result → List Byte
  | [] => []
  | .frame bytes :: rs => bytes ++ txStream rs
  | _ :: rs => txStream rs

/-- The bytes of the receive stream still to come (spec/20_memory.md R30). -/
def rxStream : List Txn → List Byte
  | [] => []
  | .feed b :: ts => b :: rxStream ts
  | _ :: ts => rxStream ts

/-- The events returned so far, in order (spec/10_state.md R23). -/
def eventsOf : List Result → List Event
  | [] => []
  | .fed (some e) :: rs => e :: eventsOf rs
  | _ :: rs => eventsOf rs

/-- The Register Map once the FEED that returned this event has ended (spec/41_frame_decoder.md R98, R99). -/
def eventWrites (m : Memory) : Event → Memory
  | .readResponse addr data => memWrite m addr.toNat data
  | .feedback addr data => memWrite m addr.toNat data
  | .alarm _ _ => m

end Sys2Proof.Machine
end

