-- ==== Sys2Proof/Certificates/Slice0/Obligations.lean ====
section
/-!
DEFINITION. The statements for the provers. Constants are written out as the spec writes them. Where a statement rests
on an inference that the spec itself marks "[derived: …]", its docstring says so and its basis is 'derived'.
-/

open Sys2Proof Sys2Proof.Machine

/-! ## The CRC-16 unit -/

/-- spec/40_crc16.md R67, R68: the two reflections reverse the bit order, and reflecting a word exchanges and reflects
its bytes. -/
def Obligations.ReflectionReversesBits : Prop :=
  (∀ (b : Byte) (i : Nat), i < 8 → (reflect8 b).getLsbD i = b.getLsbD (7 - i)) ∧
  (∀ b : Byte, reflect8 (reflect8 b) = b) ∧
  (∀ (w : Word16) (i : Nat), i < 16 → (reflect16 w).getLsbD i = w.getLsbD (15 - i)) ∧
  ∀ w : Word16, (reflect16 w).extractLsb' 0 8 = reflect8 (w.extractLsb' 8 8) ∧
    (reflect16 w).extractLsb' 8 8 = reflect8 (w.extractLsb' 0 8)

/-- spec/40_crc16.md R69, as arithmetic on natural numbers: `(a << 1) AND 0xFFFF`, XORed with the polynomial exactly if
bit 15 of `a` was set. -/
def Obligations.BitStepShiftsAndReduces : Prop :=
  ∀ a : Word16, (bitstep a).toNat =
    if 32768 ≤ a.toNat then ((2 * a.toNat) % 65536) ^^^ 0x8005 else (2 * a.toNat) % 65536

/-- spec/40_crc16.md R73: the pseudocode loop written out, its corner cases (the empty message, a leading zero, the
order of the bytes, every word16 occurs) and its worked example. -/
def Obligations.CrcFollowsItsLoop : Prop :=
  (∀ m : List Byte, crc16 m = reflect16 (m.foldl (fun a b =>
      Nat.iterate (fun a : Word16 => if a.getLsbD 15 then (a <<< 1) ^^^ 0x8005#16 else a <<< 1) 8
        (a ^^^ ((reflect8 b).setWidth 16 <<< 8))) 0xFFFF#16)) ∧
  crc16 [] = 0xFFFF#16 ∧ crc16 [0x00] = 0x40BF#16 ∧ crc16 [0xAA, 0x77] ≠ crc16 [0x77, 0xAA] ∧
  (∀ c : Word16, ∃ m : List Byte, crc16 m = c) ∧
  crc16 [0xAA, 0x77, 0x08, 0x01, 0x02] = 0x3F26#16

/-- The accumulator can be folded in byte by byte (spec/40_crc16.md R72, an inference the spec marks as derived from
R70, R71 and R73). -/
def Obligations.CrcFoldsByteByByte : Prop :=
  crcAcc [] = 0xFFFF#16 ∧ (∀ (m : List Byte) (b : Byte), crcAcc (m ++ [b]) = bytestep (crcAcc m) b) ∧
  (∀ m : List Byte, crc16 m = reflect16 (crcAcc m)) ∧ crcAcc [0xAA, 0x77] = 0xFC6C#16

/-- The nine values of the table of spec/40_crc16.md R79 (marked there as derived from R73). -/
def Obligations.CrcTableValues : Prop :=
  crc16 [] = 0xFFFF#16 ∧ crc16 [0x00] = 0x40BF#16 ∧ crc16 [0xFF] = 0x00FF#16 ∧ crc16 [0xAA] = 0x3F3F#16 ∧
  crc16 [0xAA, 0x77] = 0x363F#16 ∧ crc16 [0xAA, 0x77, 0x03] = 0x1136#16 ∧
  crc16 [0x31, 0x32, 0x33, 0x34, 0x35, 0x36, 0x37, 0x38, 0x39] = 0x4B37#16 ∧
  crc16 [0x01, 0x03, 0x00, 0x00, 0x00, 0x0A] = 0xCDC5#16 ∧ crc16 [0xAA, 0x77, 0x08, 0x01, 0x02] = 0x3F26#16

/-- The right-shifting form computes the same function, and at every bit step one accumulator is the reflection of the
other (spec/40_crc16.md R74, marked there as derived from R67 to R71). -/
def Obligations.RightShiftingFormAgrees : Prop :=
  (∀ m : List Byte, crc16Lsb m = crc16 m) ∧ ∀ a : Word16, bitstepLsb (reflect16 a) = reflect16 (bitstep a)

/-- A frame's check bytes are right exactly when the CRC of the whole frame, check bytes included, is zero
(spec/40_crc16.md R78, marked there as derived from R73 and R75). -/
def Obligations.RightCheckBytesLeaveZeroResidue : Prop :=
  ∀ (h : List Byte) (lo hi : Byte),
    (lo = (crc16 h).extractLsb' 0 8 ∧ hi = (crc16 h).extractLsb' 8 8) ↔ crc16 (h ++ [lo, hi]) = 0#16

/-- Flipping any one bit of a message changes its CRC (spec/40_crc16.md R77, property 2; its property 1, that repeated
calls agree, holds of any function). -/
def Obligations.SingleBitFlipChangesCrc : Prop :=
  ∀ (before after : List Byte) (b : Byte) (k : Nat), k < 8 →
    crc16 (before ++ (b ^^^ (1#8 <<< k)) :: after) ≠ crc16 (before ++ b :: after)

/-! ## The Frame Builder -/

/-- spec/42_frame_builder.md R108: BUILD_READ, the instruction RD_REQ, completes on every pair of bytes, returns the
7-byte request and changes nothing else; the worked example. -/
def Obligations.BuildReadReturnsRequest : Prop :=
  (∀ (addr len : Byte) (s : State), exec (.rdReq addr len) s = .next { s with results := s.results ++
    [.frame [0xAA, 0x77, 0x03, addr, len, (crc16 [0xAA, 0x77, 0x03, addr, len]).extractLsb' 0 8,
      (crc16 [0xAA, 0x77, 0x03, addr, len]).extractLsb' 8 8]] }) ∧
  encode (.rdReq 2 6) = [0xAA, 0x77, 0x03, 0x02, 0x06, 0x56, 0xCE]

/-- spec/42_frame_builder.md R109: BUILD_WRITE, the instruction WR, completes on every address and every data of at most
255 bytes, returns the frame of `|data| + 7` bytes and changes nothing else, the Register Map included; the worked
example. -/
def Obligations.BuildWriteReturnsFrame : Prop :=
  (∀ (addr : Byte) (data : List Byte) (s : State), data.length ≤ 255 →
    exec (.wr addr data) s = .next { s with results := s.results ++
      [.frame ([0xAA, 0x77, 0x04, addr, BitVec.ofNat 8 data.length] ++ data ++
        [(crc16 ([0xAA, 0x77, 0x04, addr, BitVec.ofNat 8 data.length] ++ data)).extractLsb' 0 8,
         (crc16 ([0xAA, 0x77, 0x04, addr, BitVec.ofNat 8 data.length] ++ data)).extractLsb' 8 8])] }) ∧
  encode (.wr 30 [0x02]) = [0xAA, 0x77, 0x04, 0x1E, 0x01, 0x02, 0x0D, 0x7D]

/-- spec/42_frame_builder.md R110: BUILD_WRITE with more than 255 data bytes is refused and produces no bytes. -/
def Obligations.BuildWriteRefusesLongData : Prop :=
  ∀ (addr : Byte) (data : List Byte) (s : State), 255 < data.length →
    exec (.wr addr data) s = .refused .writeTooLong

/-- spec/42_frame_builder.md R111, spec/60_exceptions.md R126: the transmit stream grows by a built frame, in order, and
by nothing else, whatever is received. -/
def Obligations.OnlyTheBuilderTransmits : Prop :=
  ∀ (s t : State) (tx : Txn) (rest : List Txn), s.todo = tx :: rest → step s = .next t →
    txStream t.results = txStream s.results ++
      (match tx with
       | .buildRead addr len => encode (.rdReq addr len)
       | .buildWrite addr data => encode (.wr addr data)
       | _ => [])

/-! ## Complete frames: the instructions RD_RSP, FB, ALARM, UNKNOWN_RX -/

/-- spec/41_frame_decoder.md R97, R98 and spec/20_memory.md R37: RD_RSP and FB with right check bytes complete, write
each data byte whose address is at most 255, leave every other address as it was, and return their event. -/
def Obligations.ValidDataFrameCommits : Prop :=
  ∀ (code : Byte) (mk : Byte → List Byte → Byte → Byte → Instr) (ev : Byte → List Byte → Event),
    (code = 0x03 ∧ mk = Instr.rdRsp ∧ ev = Event.readResponse) ∨
      (code = 0x05 ∧ mk = Instr.fb ∧ ev = Event.feedback) →
    ∀ (addr : Byte) (data : List Byte) (lo hi : Byte) (s : State),
      s.regMap.wf = true → data.length ≤ 255 →
      lo = (crc16 ([0xAA, 0x77, code, addr, BitVec.ofNat 8 data.length] ++ data)).extractLsb' 0 8 →
      hi = (crc16 ([0xAA, 0x77, code, addr, BitVec.ofNat 8 data.length] ++ data)).extractLsb' 8 8 →
      ∃ m : Memory,
        exec (mk addr data lo hi) s = .next { s with
          regMap := m
          dec := { synced := false, instruction := none, payloadBuf := [], expectedLen := none, prev := s.dec.prev }
          results := s.results ++ [.fed (some (ev addr data))] } ∧
        ∀ a : Nat, m.read a =
          if addr.toNat ≤ a ∧ a < addr.toNat + data.length ∧ a ≤ 255 then data.getD (a - addr.toNat) 0
          else s.regMap.read a

/-- spec/41_frame_decoder.md R99: ALARM with right check bytes completes, returns its event and writes no entry. -/
def Obligations.ValidAlarmReturnsEvent : Prop :=
  ∀ (level type lo hi : Byte) (s : State),
    lo = (crc16 [0xAA, 0x77, 0x08, level, type]).extractLsb' 0 8 →
    hi = (crc16 [0xAA, 0x77, 0x08, level, type]).extractLsb' 8 8 →
    exec (.alarm level type lo hi) s = .next { s with
      dec := { synced := false, instruction := none, payloadBuf := [], expectedLen := none, prev := s.dec.prev }
      results := s.results ++ [.fed (some (.alarm level type))] }

/-- spec/41_frame_decoder.md R96 and spec/60_exceptions.md R118: a frame of any of the three rows one of whose check
bytes is wrong is discarded: the framing reset, `None`, and no entry written. -/
def Obligations.WrongCheckBytesDiscard : Prop :=
  ∀ (i : Instr) (h : List Byte) (lo hi : Byte),
    (∃ addr data, data.length ≤ 255 ∧ i = .rdRsp addr data lo hi ∧
        h = [0xAA, 0x77, 0x03, addr, BitVec.ofNat 8 data.length] ++ data) ∨
      (∃ addr data, data.length ≤ 255 ∧ i = .fb addr data lo hi ∧
        h = [0xAA, 0x77, 0x05, addr, BitVec.ofNat 8 data.length] ++ data) ∨
      (∃ level type, i = .alarm level type lo hi ∧ h = [0xAA, 0x77, 0x08, level, type]) →
    (lo ≠ (crc16 h).extractLsb' 0 8 ∨ hi ≠ (crc16 h).extractLsb' 8 8) →
    ∀ s : State, exec i s = .next { s with
      dec := { synced := false, instruction := none, payloadBuf := [], expectedLen := none, prev := s.dec.prev }
      results := s.results ++ [.fed none] }

/-- spec/60_exceptions.md R121: UNKNOWN_RX completes by the discard procedure, for each of the 253 byte values. -/
def Obligations.UnknownInstructionDiscards : Prop :=
  ∀ (code : Byte) (s : State), code ≠ 0x03 → code ≠ 0x05 → code ≠ 0x08 →
    exec (.unknownRx code) s = .next { s with
      dec := { synced := false, instruction := none, payloadBuf := [], expectedLen := none, prev := s.dec.prev }
      results := s.results ++ [.fed none] }

/-- One flipped bit in `addr` or in a data byte of a valid RD_RSP or FB frame, the frame without data included, or in
`level` or `type` of a valid ALARM frame, makes the frame be discarded (spec/70_reset_and_hazards.md R144 and
spec/90_conflicts.md C5, marked as derived from spec/40_crc16.md R77). -/
def Obligations.SingleBitDamageIsDiscarded : Prop :=
  ∀ (lo hi : Byte) (k : Nat) (s : State), k < 8 →
    (∀ (addr : Byte) (data : List Byte), data.length ≤ 255 →
      (frameEvent (.rdRsp addr data lo hi) ≠ none →
        exec (.rdRsp (addr ^^^ (1#8 <<< k)) data lo hi) s = .next (s.framingReset.emit (.fed none))) ∧
      (frameEvent (.fb addr data lo hi) ≠ none →
        exec (.fb (addr ^^^ (1#8 <<< k)) data lo hi) s = .next (s.framingReset.emit (.fed none)))) ∧
    (∀ (addr b : Byte) (before after : List Byte), before.length + after.length + 1 ≤ 255 →
      (frameEvent (.rdRsp addr (before ++ b :: after) lo hi) ≠ none →
        exec (.rdRsp addr (before ++ (b ^^^ (1#8 <<< k)) :: after) lo hi) s =
          .next (s.framingReset.emit (.fed none))) ∧
      (frameEvent (.fb addr (before ++ b :: after) lo hi) ≠ none →
        exec (.fb addr (before ++ (b ^^^ (1#8 <<< k)) :: after) lo hi) s =
          .next (s.framingReset.emit (.fed none)))) ∧
    ∀ level type : Byte, frameEvent (.alarm level type lo hi) ≠ none →
      exec (.alarm (level ^^^ (1#8 <<< k)) type lo hi) s = .next (s.framingReset.emit (.fed none)) ∧
      exec (.alarm level (type ^^^ (1#8 <<< k)) lo hi) s = .next (s.framingReset.emit (.fed none))

/-! ## One transaction -/

/-- A step runs the instruction its transaction leads to: BUILD_READ and BUILD_WRITE run RD_REQ and WR; a FEED whose
byte makes the received bytes an instruction runs that instruction, on the state in which the byte has been taken off
`todo`, stored in `prev` and appended to the buffer (spec/41_frame_decoder.md R81, R94; that a step is a transaction is
the model's choice, notes/assumptions/1.md and 4.md). -/
def Obligations.StepRunsTheDecodedInstruction : Prop :=
  ∀ (s : State) (rest : List Txn),
    (∀ addr len, s.todo = .buildRead addr len :: rest →
      step s = exec (.rdReq addr len) { s with todo := rest }) ∧
    (∀ addr data, s.todo = .buildWrite addr data :: rest →
      step s = exec (.wr addr data) { s with todo := rest }) ∧
    (∀ (b : Byte) (i : Instr), s.inv = true → s.todo = .feed b :: rest → s.dec.synced = true →
      s.dec.instruction = none → i.wf = true → decode .toHost [0xAA, 0x77, b] = .ok (i, []) →
      step s = exec i { s with todo := rest, dec := { s.dec with prev := b } }) ∧
    ∀ (b c : Byte) (i : Instr), s.inv = true → s.todo = .feed b :: rest → s.dec.instruction = some c →
      i.wf = true → decode .toHost ([0xAA, 0x77, c] ++ s.dec.payloadBuf ++ [b]) = .ok (i, []) →
      step s = exec i { s with todo := rest, dec := { s.dec with prev := b, payloadBuf := s.dec.payloadBuf ++ [b] } }

/-- Every well-formed instruction is run by the next step of the state in which it is placed, the decoder untouched for
a row the builder makes, and `prev` the frame's last byte for a received row (the model's placing of an instruction,
notes/assumptions/1.md). -/
def Obligations.PlacedInstructionRunsNext : Prop :=
  ∀ (i : Instr) (s : State), i.wf = true →
    ∃ d : Decoder, step (placeInstr i s) = exec i { s with dec := d } ∧
      (i.direction = .toDevice → d = s.dec) ∧ (i.direction = .toHost → some d.prev = (encode i).getLast?)

/-- spec/41_frame_decoder.md R83, R84: while hunting a FEED syncs on the adjacent pair `0xAA 0x77` and otherwise changes
nothing but `prev`; its result is `None`. -/
def Obligations.HuntingSyncsOnTheMarkerOnly : Prop :=
  ∀ (s : State) (b : Byte) (rest : List Txn), s.todo = .feed b :: rest → s.dec.synced = false →
    (s.dec.prev = 0xAA ∧ b = 0x77 → step s = .next { s with
      todo := rest, dec := { s.dec with synced := true, prev := b }, results := s.results ++ [.fed none] }) ∧
    (¬(s.dec.prev = 0xAA ∧ b = 0x77) → step s = .next { s with
      todo := rest, dec := { s.dec with prev := b }, results := s.results ++ [.fed none] })

/-- spec/41_frame_decoder.md R85: the first byte after the marker is dispatched in the step that receives it: `0x03` and
`0x05` are stored, `0x08` is stored with its fixed length, any other is discarded at once; the result is `None`. -/
def Obligations.InstructionByteIsDispatched : Prop :=
  ∀ (s : State) (b : Byte) (rest : List Txn), s.todo = .feed b :: rest → s.dec.synced = true →
    s.dec.instruction = none →
    (b = 0x03 ∨ b = 0x05 → step s = .next { s with
      todo := rest, dec := { s.dec with prev := b, instruction := some b }, results := s.results ++ [.fed none] }) ∧
    (b = 0x08 → step s = .next { s with
      todo := rest, dec := { s.dec with prev := b, instruction := some b, expectedLen := some 4 },
      results := s.results ++ [.fed none] }) ∧
    (b ≠ 0x03 ∧ b ≠ 0x05 ∧ b ≠ 0x08 → step s = .next { s with
      todo := rest
      dec := { synced := false, instruction := none, payloadBuf := [], expectedLen := none, prev := b }
      results := s.results ++ [.fed none] })

/-- spec/41_frame_decoder.md R92: a byte that does not complete the frame is appended, whatever its value; `expectedLen`
becomes `len + 4`, a natural number, when the second payload byte of a `0x03` or `0x05` frame arrives, and no other byte
changes it. -/
def Obligations.PayloadByteIsBuffered : Prop :=
  ∀ (s : State) (b c : Byte) (rest : List Txn) (e : Option Nat), s.inv = true → s.todo = .feed b :: rest →
    s.dec.instruction = some c →
    e = (if c = 0x08 then s.dec.expectedLen
         else if s.dec.payloadBuf.length = 1 then some (b.toNat + 4) else s.dec.expectedLen) →
    e ≠ some (s.dec.payloadBuf.length + 1) →
    step s = .next { s with
      todo := rest
      dec := { s.dec with prev := b, payloadBuf := s.dec.payloadBuf ++ [b], expectedLen := e }
      results := s.results ++ [.fed none] }

/-- spec/10_state.md R13: REG_READ returns the entry and changes nothing; after a RESET it returns the entry of
`REGMAP_INIT`. -/
def Obligations.RegReadReturnsTheEntry : Prop :=
  ∀ (s : State) (a : Byte) (rest : List Txn),
    (s.todo = .regRead a :: rest → step s = .next { s with
      todo := rest, results := s.results ++ [.value (s.regMap.read a.toNat)] }) ∧
    (s.todo = .reset :: .regRead a :: rest → ∃ t, runs 2 s = .next t ∧
      t.results = s.results ++ [.resetDone, .value (s.regmapInit.read a.toNat)])

/-- spec/70_reset_and_hazards.md R132: RESET puts every item of the block's state at its reset value, at any time, and
sends nothing. -/
def Obligations.ResetRestoresTheBlock : Prop :=
  ∀ (s : State) (rest : List Txn), s.todo = .reset :: rest → step s = .next { s with
    regMap := s.regmapInit
    dec := { synced := false, instruction := none, payloadBuf := [], expectedLen := none, prev := 0x00 }
    todo := rest
    results := s.results ++ [.resetDone] }

/-- spec/10_state.md R26: the state after reset, for every instance of `REGMAP_INIT`. (That `State.reset` takes the
instance all `0x00`, and nothing to do, is the model's choice: notes/assumptions/1.md, 2.md.) -/
def Obligations.PowerOnState : Prop :=
  ∀ init : Memory,
    (∀ a : Byte, (State.resetWith init).regMap.read a.toNat = init.read a.toNat) ∧
    (State.resetWith init).dec.synced = false ∧ (State.resetWith init).dec.instruction = none ∧
    (State.resetWith init).dec.payloadBuf = [] ∧ (State.resetWith init).dec.expectedLen = none ∧
    (State.resetWith init).dec.prev = 0x00

/-- The CRC16 transaction returns the CRC of its message and changes nothing (spec/00_scope.md section 4). -/
def Obligations.CrcTransactionReturnsTheCrc : Prop :=
  ∀ (s : State) (m : List Byte) (rest : List Txn), s.todo = .crc16 m :: rest → step s = .next { s with
    todo := rest, results := s.results ++ [.crc (reflect16 (crcAcc m))] }

/-- With no transaction to perform a step changes nothing (the model's choice, notes/assumptions/10.md; spec/60_exceptions.md:
"the block does nothing between `FEED`s and holds its state indefinitely"). -/
def Obligations.IdleStepHoldsTheState : Prop :=
  ∀ s : State, s.todo = [] → step s = .next s

/-! ## Every transaction -/

/-- Every FEED from a legal state goes on, takes exactly its byte and returns one result; a FEED that returns an event
leaves the decoder hunting (spec/41_frame_decoder.md R105, marked there as derived from R81, R93 and R101). -/
def Obligations.FeedIsTotal : Prop :=
  ∀ (s : State) (b : Byte) (rest : List Txn), s.inv = true → s.todo = .feed b :: rest →
    ∃ (t : State) (e : Option Event), step s = .next t ∧ t.todo = rest ∧ t.results = s.results ++ [.fed e] ∧
      (e ≠ none → t.dec = Decoder.hunting b)

/-- From a legal state no step faults, and the only refusal is BUILD_WRITE beyond 255 data bytes
(spec/60_exceptions.md section 2 and R127's case of BUILD_WRITE; notes/assumptions/8.md, 9.md). -/
def Obligations.OnlyLongWritesStop : Prop :=
  ∀ s : State, s.inv = true →
    (∀ f, step s ≠ .fault f) ∧
    ∀ r, step s = .refused r → r = .writeTooLong ∧
      ∃ addr data rest, s.todo = .buildWrite addr data :: rest ∧ 255 < data.length

/-- spec/41_frame_decoder.md R82: every FEED that goes on ends with `prev` its byte, whatever the decoder did. -/
def Obligations.PrevIsTheLastFedByte : Prop :=
  ∀ (s t : State) (b : Byte) (rest : List Txn), s.todo = .feed b :: rest → step s = .next t → t.dec.prev = b

/-- Of the six transactions only FEED and RESET change the decoder state (spec/10_state.md section 1,
spec/42_frame_builder.md section 3). -/
def Obligations.OnlyFeedAndResetChangeTheDecoder : Prop :=
  ∀ (s t : State) (tx : Txn) (rest : List Txn), s.todo = tx :: rest → step s = .next t → t.dec ≠ s.dec →
    tx = .reset ∨ ∃ b, tx = .feed b

/-- The Register Map changes only by RESET, and by a FEED that completes a `0x03` or `0x05` frame whose CRC, check bytes
included, is zero; then it changes by the range update, and the event says what was written (spec/10_state.md R12,
marked there as derived from R98 and R112). -/
def Obligations.RegisterMapChangesOnlyByValidFrames : Prop :=
  ∀ s t : State, s.inv = true → step s = .next t → t.regMap ≠ s.regMap →
    (∃ rest, s.todo = .reset :: rest ∧ t.regMap = s.regmapInit) ∨
    ∃ b rest c addr data, s.todo = .feed b :: rest ∧ s.dec.instruction = some c ∧ (c = 0x03 ∨ c = 0x05) ∧
      s.dec.expectedLen = some (s.dec.payloadBuf.length + 1) ∧
      crc16 ([0xAA, 0x77, c] ++ s.dec.payloadBuf ++ [b]) = 0#16 ∧
      t.regMap = memWrite s.regMap addr.toNat data ∧
      t.results = s.results ++
        [.fed (some (if c = 0x03 then .readResponse addr data else .feedback addr data))]

/-- spec/10_state.md R15: `synced` becomes true only on the marker pair, and false only together with the whole framing
reset. -/
def Obligations.SyncedChangesOnlyByMarkerAndFramingReset : Prop :=
  ∀ s t : State, s.inv = true → step s = .next t →
    (s.dec.synced = false → t.dec.synced = true →
      s.dec.prev = 0xAA ∧ ∃ rest, s.todo = .feed 0x77 :: rest) ∧
    (s.dec.synced = true → t.dec.synced = false →
      t.dec.instruction = none ∧ t.dec.payloadBuf = [] ∧ t.dec.expectedLen = none)

/-- What the Register Map holds changes nothing a FEED does but the Register Map (spec/20_memory.md R43 (b), marked
there as derived from R81 to R101). -/
def Obligations.FeedIgnoresTheRegisterMap : Prop :=
  ∀ (s t : State) (m : Memory) (b : Byte) (rest : List Txn), s.todo = .feed b :: rest → step s = .next t →
    ∃ m' : Memory, step { s with regMap := m } = .next { t with regMap := m' }

/-- A transaction that goes on takes itself off `todo`, appends one result, and does the same whatever transactions come
after it and whatever was returned before (spec/20_memory.md section 5; the queue and the results are the model's,
notes/assumptions/1.md). -/
def Obligations.TransactionsAreSequentialAndMemoryless : Prop :=
  ∀ (s t : State) (tx : Txn) (rest : List Txn), s.todo = tx :: rest → step s = .next t →
    ∃ r : Result, t.todo = rest ∧ t.results = s.results ++ [r] ∧ t.regmapInit = s.regmapInit ∧
      ∀ (later : List Txn) (earlier : List Result),
        step { s with todo := tx :: later, results := earlier } =
          .next { t with todo := later, results := earlier ++ [r] }

/-- spec/20_memory.md R41: after the FEED that returned a ReadResponse or Feedback event, REG_READ of an address in its
range and in the map reads the data byte. -/
def Obligations.CommittedDataIsReadBack : Prop :=
  ∀ (s t : State) (b addr : Byte) (data : List Byte) (i : Nat) (rest : List Txn), s.inv = true →
    i < data.length → addr.toNat + i ≤ 255 →
    s.todo = .feed b :: .regRead (BitVec.ofNat 8 (addr.toNat + i)) :: rest → step s = .next t →
    (t.results = s.results ++ [.fed (some (.readResponse addr data))] ∨
      t.results = s.results ++ [.fed (some (.feedback addr data))]) →
    ∃ u, runs 2 s = .next u ∧ u.results = t.results ++ [.value (data.getD i 0)]

/-- The decoder state lives for one frame: every received instruction, completed or rejected, leaves the framing reset,
with `prev` kept; and so does, from a legal state, the FEED of the byte that completes a frame or is an unknown
instruction (spec/70_reset_and_hazards.md R131, which quotes the source and marks the reset behaviour as the spec's
decision). -/
def Obligations.EveryFrameEndResetsTheDecoder : Prop :=
  (∀ (i : Instr) (s : State), i.direction = .toHost → ∃ t, exec i s = .next t ∧
    t.dec = { synced := false, instruction := none, payloadBuf := [], expectedLen := none, prev := s.dec.prev }) ∧
  ∀ (s : State) (b : Byte) (rest : List Txn), s.inv = true → s.todo = .feed b :: rest → s.dec.synced = true →
    (s.dec.instruction = none ∧ b ≠ 0x03 ∧ b ≠ 0x05 ∧ b ≠ 0x08) ∨
      s.dec.expectedLen = some (s.dec.payloadBuf.length + 1) →
    ∃ t, step s = .next t ∧
      t.dec = { synced := false, instruction := none, payloadBuf := [], expectedLen := none, prev := b }

/-- The Register Map persists from one RESET to the next: after any run of transactions without a RESET it is the map
before, with the range updates of the events returned, in order, and of nothing else (spec/70_reset_and_hazards.md R131
and R132, marked there as the spec's decision). -/
def Obligations.RegisterMapPersistsUntilReset : Prop :=
  ∀ (k : Nat) (s t : State), Txn.reset ∉ s.todo.take k → runs k s = .next t →
    t.regmapInit = s.regmapInit ∧
      t.regMap = (eventsOf (t.results.drop s.results.length)).foldl eventWrites s.regMap

/-- The phase moves as the table of spec/41_frame_decoder.md R104 says (marked there as derived from R81). -/
def Obligations.PhaseMovesAsTabulated : Prop :=
  ∀ (s t : State) (b : Byte) (rest : List Txn), s.inv = true → s.todo = .feed b :: rest → step s = .next t →
    (phase s.dec = .hunt → phase t.dec = if s.dec.prev = 0xAA ∧ b = 0x77 then .instr else .hunt) ∧
    (phase s.dec = .instr → phase t.dec =
      if b = 0x03 ∨ b = 0x05 then .head else if b = 0x08 then .alarm else .hunt) ∧
    (phase s.dec = .head → phase t.dec = if s.dec.payloadBuf.length = 0 then .head else .body) ∧
    (phase s.dec = .body → phase t.dec =
      if s.dec.expectedLen = some (s.dec.payloadBuf.length + 1) then .hunt else .body) ∧
    (phase s.dec = .alarm → phase t.dec = if s.dec.payloadBuf.length < 3 then .alarm else .hunt)

/-! ## Invariants -/

/-- The state right after reset is legal, for every instance of `REGMAP_INIT` in canonical form (spec/10_state.md
section 5 and section 6). -/
def Obligations.ResetStateIsLegal : Prop :=
  State.reset.inv = true ∧ ∀ init : Memory, init.wf = true → (State.resetWith init).inv = true

/-- Every step keeps the invariants of spec/10_state.md R25 items 1 to 6 (marked there as derived by induction over the
steps) and the canonical form of the Register Map. -/
def Obligations.EveryStepKeepsTheInvariant : Prop :=
  ∀ s t : State, s.inv = true → step s = .next t → t.inv = true

/-! ## Whole frames and streams -/

/-- Feeding the bytes of a received instruction to a hunting decoder, one transaction a byte, returns `None` for every
byte but the last and then does exactly what the instruction's meaning does (spec/41_frame_decoder.md sections 3 to 5). -/
def Obligations.FedFrameRunsItsInstruction : Prop :=
  ∀ (i : Instr) (s : State) (rest : List Txn), i.wf = true → i.direction = .toHost → s.inv = true →
    s.dec.synced = false → s.todo = feeds (encode i) ++ rest →
    ∃ d : Decoder, some d.prev = (encode i).getLast? ∧
      runs (encode i).length s = exec i { s with
        dec := d
        todo := rest
        results := s.results ++ List.replicate ((encode i).length - 1) (.fed none) }

/-- spec/41_frame_decoder.md R86, R87: the net effect of a whole `0x03` or `0x05` frame fed from hunting. The instruction
byte is stored and leaves `expectedLen` none. The first
`len + 6` FEEDs return `None` and change no entry; the last writes the range (dropping what lies past 255) and returns
the event if both check bytes are right, and otherwise returns `None` and writes nothing; the decoder then hunts with
`prev = crcHigh`. -/
def Obligations.DataFrameNetEffect : Prop :=
  ∀ (code : Byte) (ev : Byte → List Byte → Event),
    (code = 0x03 ∧ ev = Event.readResponse) ∨ (code = 0x05 ∧ ev = Event.feedback) →
    ∀ (s : State) (addr : Byte) (data : List Byte) (lo hi : Byte) (h : List Byte) (rest : List Txn),
      s.inv = true → s.dec.synced = false → data.length ≤ 255 →
      h = [0xAA, 0x77, code, addr, BitVec.ofNat 8 data.length] ++ data →
      s.todo = feeds (h ++ [lo, hi]) ++ rest →
      (∀ k ≤ data.length + 6, ∃ u, runs k s = .next u ∧ u.regMap = s.regMap ∧
        u.results = s.results ++ List.replicate k (.fed none)) ∧
      (∃ u, runs 3 s = .next u ∧ u.dec.instruction = some code ∧ u.dec.expectedLen = none) ∧
      ∃ t, runs (data.length + 7) s = .next t ∧ t.todo = rest ∧ t.regmapInit = s.regmapInit ∧
        t.dec = { synced := false, instruction := none, payloadBuf := [], expectedLen := none, prev := hi } ∧
        (lo = (crc16 h).extractLsb' 0 8 ∧ hi = (crc16 h).extractLsb' 8 8 →
          t.results = s.results ++ List.replicate (data.length + 6) (.fed none) ++ [.fed (some (ev addr data))] ∧
          ∀ a : Nat, t.regMap.read a =
            if addr.toNat ≤ a ∧ a < addr.toNat + data.length ∧ a ≤ 255 then data.getD (a - addr.toNat) 0
            else s.regMap.read a) ∧
        (¬(lo = (crc16 h).extractLsb' 0 8 ∧ hi = (crc16 h).extractLsb' 8 8) →
          t.results = s.results ++ List.replicate (data.length + 6) (.fed none) ++ [.fed none] ∧
          t.regMap = s.regMap)

/-- spec/41_frame_decoder.md R88: the net effect of a whole alarm frame fed from hunting: its instruction byte is stored
with `expectedLen` 4; six FEEDs return `None`, the
seventh returns `Alarm` if both check bytes are right and `None` if not; the Register Map is not touched. -/
def Obligations.AlarmFrameNetEffect : Prop :=
  ∀ (s : State) (level type lo hi : Byte) (rest : List Txn), s.inv = true → s.dec.synced = false →
    s.todo = feeds [0xAA, 0x77, 0x08, level, type, lo, hi] ++ rest →
    (∃ u, runs 3 s = .next u ∧ u.dec.instruction = some 0x08 ∧ u.dec.expectedLen = some 4) ∧
    runs 7 s = .next { s with
      todo := rest
      dec := { synced := false, instruction := none, payloadBuf := [], expectedLen := none, prev := hi }
      results := s.results ++ List.replicate 6 (.fed none) ++
        [.fed (if lo = (crc16 [0xAA, 0x77, 0x08, level, type]).extractLsb' 0 8 ∧
                  hi = (crc16 [0xAA, 0x77, 0x08, level, type]).extractLsb' 8 8
               then some (.alarm level type) else none)] }

/-- Bytes without an adjacent `0xAA 0x77`, also across the byte before them, and then a valid frame, give exactly one
event, that frame's, at its last byte (the source's resync property under the condition of spec/90_conflicts.md C6;
spec/70_reset_and_hazards.md R136 marks it as derived). -/
def Obligations.GarbageThenFrameGivesOneEvent : Prop :=
  ∀ (s : State) (garbage : List Byte) (i : Instr) (e : Event) (rest : List Txn), s.inv = true →
    s.dec.synced = false → hasMarker (s.dec.prev :: garbage) = false → i.wf = true → frameEvent i = some e →
    s.todo = feeds (garbage ++ encode i) ++ rest →
    ∃ t, runs (garbage.length + (encode i).length) s = .next t ∧ t.todo = rest ∧ t.dec.synced = false ∧
      t.results = s.results ++ List.replicate (garbage.length + (encode i).length - 1) (.fed none) ++ [.fed (some e)]

/-- Valid frames that follow one another with nothing between them are all decoded, in order (spec/41_frame_decoder.md
R102, marked there as derived from R82, R84 and R101). -/
def Obligations.BackToBackFramesAllDecode : Prop :=
  ∀ (frames : List (Instr × Event)) (s : State) (rest : List Txn), s.inv = true → s.dec.synced = false →
    (∀ f ∈ frames, f.1.wf = true ∧ frameEvent f.1 = some f.2) →
    s.todo = feeds (frames.flatMap fun f => encode f.1) ++ rest →
    ∃ t, runs (frames.flatMap fun f => encode f.1).length s = .next t ∧ t.todo = rest ∧ t.dec.synced = false ∧
      eventsOf t.results = eventsOf s.results ++ frames.map Prod.snd

/-- A write frame fed back into the decoder yields no event and changes no entry, where its bytes after the instruction
hold no adjacent `0xAA 0x77` (spec/42_frame_builder.md R114, marked there as derived, under the condition of
spec/90_conflicts.md C4). -/
def Obligations.WriteFrameFedBackIsIgnored : Prop :=
  ∀ (s : State) (addr : Byte) (data : List Byte) (rest : List Txn), s.inv = true → s.dec.synced = false →
    data.length ≤ 255 → hasMarker ((encode (.wr addr data)).drop 3) = false →
    s.todo = feeds (encode (.wr addr data)) ++ rest →
    ∃ t, runs (data.length + 7) s = .next t ∧ t.todo = rest ∧ t.dec.synced = false ∧ t.regMap = s.regMap ∧
      t.results = s.results ++ List.replicate (data.length + 7) (.fed none)

/-- A read request fed back into the decoder is an empty response if its `len` is 0, and otherwise leaves the decoder in
phase BODY with the request's last four bytes buffered (spec/42_frame_builder.md R114, marked there as derived). -/
def Obligations.RequestFedBackIsAResponseHeader : Prop :=
  ∀ (s : State) (addr len : Byte) (rest : List Txn), s.inv = true → s.dec.synced = false →
    s.todo = feeds (encode (.rdReq addr len)) ++ rest →
    ∃ t, runs 7 s = .next t ∧ t.todo = rest ∧ t.regMap = s.regMap ∧
      (len = 0 → t.dec.synced = false ∧
        t.results = s.results ++ List.replicate 6 (.fed none) ++ [.fed (some (.readResponse addr []))]) ∧
      (len ≠ 0 → phase t.dec = .body ∧ t.dec.payloadBuf = (encode (.rdReq addr len)).drop 3 ∧
        t.dec.expectedLen = some (len.toNat + 4) ∧ t.results = s.results ++ List.replicate 7 (.fed none))

/-- After a RESET, in the middle of a frame too, bytes without an adjacent `0xAA 0x77` (the rest of that frame) are
hunted through with no event, and the first complete frame that starts after them is decoded normally
(spec/70_reset_and_hazards.md R133, marked there as derived from R132 and spec/41_frame_decoder.md R83, R84). -/
def Obligations.FrameAfterResetDecodes : Prop :=
  ∀ (s : State) (tail : List Byte) (i : Instr) (e : Event) (rest : List Txn), s.inv = true →
    hasMarker (0x00 :: tail) = false → i.wf = true → frameEvent i = some e →
    s.todo = .reset :: feeds (tail ++ encode i) ++ rest →
    ∃ t, runs (tail.length + (encode i).length + 1) s = .next t ∧ t.todo = rest ∧ t.dec.synced = false ∧
      t.results = s.results ++ .resetDone ::
        List.replicate (tail.length + (encode i).length - 1) (.fed none) ++ [.fed (some e)]

/-- Every frame attempt ends: a decoder that is not hunting hunts again after at most 260 further bytes, whatever they
are (spec/41_frame_decoder.md R105, marked there as derived from R81, R93 and R101). -/
def Obligations.EveryFrameAttemptEnds : Prop :=
  ∀ (s : State) (bytes : List Byte) (rest : List Txn), s.inv = true → s.dec.synced = true →
    260 ≤ bytes.length → s.todo = feeds bytes ++ rest →
    ∃ (k : Nat) (t : State), 1 ≤ k ∧ k ≤ 260 ∧ runs k s = .next t ∧ t.dec.synced = false

/-! ## Encodings -/

/-- Decoding the encoding of a well-formed instruction, in its direction and with anything after it, gives the
instruction back (spec/30_encoding.md sections 2 to 4). -/
def Obligations.DecodeInvertsEncode : Prop :=
  ∀ (i : Instr) (rest : List Byte), i.wf = true → decode i.direction (encode i ++ rest) = .ok (i, rest)

/-- Every received frame the decoder answers is a well-formed row of the receive side, and its bytes are that row's
encoding: no received bit is dropped (spec/30_encoding.md sections 2 to 4). -/
def Obligations.EncodeInvertsReceiveDecode : Prop :=
  ∀ (bytes : List Byte) (i : Instr) (rest : List Byte), decode .toHost bytes = .ok (i, rest) →
    i.wf = true ∧ i.direction = .toHost ∧ bytes = encode i ++ rest

/-- Each of the 253 values other than `0x03`, `0x05` and `0x08` decodes, on the receive side, as an unknown instruction,
`0x04` among them (spec/30_encoding.md section 5). -/
def Obligations.OtherCodesDecodeAsUnknown : Prop :=
  ∀ (code : Byte) (rest : List Byte), code ≠ 0x03 → code ≠ 0x05 → code ≠ 0x08 →
    decode .toHost (0xAA :: 0x77 :: code :: rest) = .ok (.unknownRx code, rest)

/-- One frame of each row, written out from the spec's vectors, decodes to the instruction it stands for
(spec/95_test_vectors.md sections 3 to 6). -/
def Obligations.WrittenOutFramesDecode : Prop :=
  decode .toDevice [0xAA, 0x77, 0x03, 0x02, 0x06, 0x56, 0xCE] = .ok (.rdReq 2 6, []) ∧
  decode .toHost [0xAA, 0x77, 0x03, 0x0D, 0x04, 0x01, 0x02, 0x03, 0x04, 0xA8, 0x47] =
    .ok (.rdRsp 0x0D [0x01, 0x02, 0x03, 0x04] 0xA8 0x47, []) ∧
  decode .toDevice [0xAA, 0x77, 0x04, 0x1E, 0x01, 0x02, 0x0D, 0x7D] = .ok (.wr 0x1E [0x02], []) ∧
  decode .toHost [0xAA, 0x77, 0x05, 0x44, 0x01, 0x07, 0xEC, 0x91] = .ok (.fb 0x44 [0x07] 0xEC 0x91, []) ∧
  decode .toHost [0xAA, 0x77, 0x08, 0x01, 0x02, 0x26, 0x3F] = .ok (.alarm 1 2 0x26 0x3F, []) ∧
  decode .toHost [0xAA, 0x77, 0x04, 0x1E] = .ok (.unknownRx 0x04, [0x1E])
end

