-- ==== Sys2Proof/Laws/Crc.lean ====
section
/-!
SUPPORT. Small lemmas of the CRC unit: how the accumulator grows, and that its steps are linear over XOR.
-/

namespace Sys2Proof.Machine

@[simp] theorem crcAcc_nil : crcAcc [] = Config.crcInit := rfl

theorem crcAcc_append (m n : List Byte) : crcAcc (m ++ n) = n.foldl bytestep (crcAcc m) := by
  simp [crcAcc, List.foldl_append]

@[simp] theorem crcAcc_concat (m : List Byte) (b : Byte) : crcAcc (m ++ [b]) = bytestep (crcAcc m) b := by
  simp [crcAcc_append]

/-- The final XOR is with zero (R71). -/
theorem crc16_eq_reflect (m : List Byte) : crc16 m = reflect16 (crcAcc m) := by
  simp [crc16, Config.crcXorOut]

@[simp] theorem getLsbD_reflect8 (b : Byte) (i : Nat) (h : i < 8) :
    (reflect8 b).getLsbD i = b.getLsbD (7 - i) := by
  rw [reflect8, BitVec.getLsbD_reverse, BitVec.getMsbD]
  simp [h]

@[simp] theorem getLsbD_reflect16 (w : Word16) (i : Nat) (h : i < 16) :
    (reflect16 w).getLsbD i = w.getLsbD (15 - i) := by
  rw [reflect16, BitVec.getLsbD_reverse, BitVec.getMsbD]
  simp [h]

/-- A bit step is linear over XOR. -/
theorem bitstep_xor (a b : Word16) : bitstep (a ^^^ b) = bitstep a ^^^ bitstep b := by
  simp only [bitstep, BitVec.getLsbD_xor, BitVec.shiftLeft_xor_distrib]
  cases a.getLsbD 15 <;> cases b.getLsbD 15 <;> simp <;>
    (apply BitVec.eq_of_getLsbD_eq; intro i hi; simp only [BitVec.getLsbD_xor]; grind)

theorem bitsteps_xor (n : Nat) (a b : Word16) : bitsteps n (a ^^^ b) = bitsteps n a ^^^ bitsteps n b := by
  induction n generalizing a b with
  | zero => rfl
  | succ n ih => simp only [bitsteps, bitstep_xor, ih]

theorem bitsteps_add (m n : Nat) (a : Word16) : bitsteps (m + n) a = bitsteps n (bitsteps m a) := by
  induction m generalizing a with
  | zero => simp [bitsteps]
  | succ m ih => rw [Nat.add_right_comm]; simp only [bitsteps, ih]

/-- Only zero steps to zero: the polynomial's lowest bit is set. -/
theorem bitstep_eq_zero {a : Word16} (h : bitstep a = 0) : a = 0 := by
  unfold bitstep Config.crcPoly at h
  split at h
  · exfalso
    have := congrArg (fun w => w.getLsbD 0) h
    simp at this
  · rename_i h15
    apply BitVec.eq_of_getLsbD_eq
    intro i hi
    by_cases h' : i = 15
    · subst h'; simpa using h15
    · have := congrArg (fun w => w.getLsbD (i + 1)) h
      simp only [BitVec.getLsbD_shiftLeft] at this
      simpa [show i + 1 < 16 by omega, hi] using this

theorem bitsteps_eq_zero {n : Nat} {a : Word16} (h : bitsteps n a = 0) : a = 0 := by
  induction n generalizing a with
  | zero => exact h
  | succ n ih => exact bitstep_eq_zero (ih h)

@[simp] theorem length_checkBytes (h : List Byte) : (checkBytes h).length = 2 := rfl
@[simp] theorem length_assemble (h : List Byte) : (assemble h).length = h.length + 2 := by simp [assemble]
@[simp] theorem length_dataHeader (code addr : Byte) (data : List Byte) :
    (dataHeader code addr data).length = data.length + 5 := by simp [dataHeader, frameHead]
@[simp] theorem length_alarmHeader (l t : Byte) : (alarmHeader l t).length = 5 := rfl
@[simp] theorem length_requestHeader (a l : Byte) : (requestHeader a l).length = 5 := rfl

/-- The length byte of data that fits it is the data's length. -/
theorem toNat_lenByte {data : List Byte} (h : data.length ≤ 255) : (lenByte data).toNat = data.length := by
  simp only [lenByte, BitVec.toNat_ofNat]
  exact Nat.mod_eq_of_lt (by omega)

end Sys2Proof.Machine
end

