-- ==== Sys2Proof/Laws/Decode.lean ====
section
/-!
SUPPORT. The decoder, one lemma per row it can answer.
-/

namespace Sys2Proof

open Machine

/-- The data of a well-formed `RD_RSP`, `WR` or `FB` fits the length byte. -/
@[simp] theorem dataFits_iff {data : List Byte} : dataFits data = true ↔ data.length ≤ 255 := by
  unfold dataFits Config.maxData
  exact decide_eq_true_iff

@[simp] theorem wf_rdReq (addr len : Byte) : (Instr.rdReq addr len).wf = true := rfl
@[simp] theorem wf_rdRsp (addr : Byte) (data : List Byte) (lo hi : Byte) :
    (Instr.rdRsp addr data lo hi).wf = dataFits data := rfl
@[simp] theorem wf_wr (addr : Byte) (data : List Byte) : (Instr.wr addr data).wf = dataFits data := rfl
@[simp] theorem wf_fb (addr : Byte) (data : List Byte) (lo hi : Byte) :
    (Instr.fb addr data lo hi).wf = dataFits data := rfl
@[simp] theorem wf_alarm (level type lo hi : Byte) : (Instr.alarm level type lo hi).wf = true := rfl
@[simp] theorem wf_unknownRx (code : Byte) : (Instr.unknownRx code).wf = !acceptedCode code := rfl

theorem decode_toHost_frameHead (code : Byte) (rest : List Byte) :
    decode .toHost (frameHead code ++ rest) = decodeRx code rest := rfl

theorem decode_toDevice_frameHead (code : Byte) (rest : List Byte) :
    decode .toDevice (frameHead code ++ rest) = decodeTx code rest := rfl

theorem decodeRx_read (rest : List Byte) : decodeRx Config.iRead rest = decodeData .rdRsp rest := rfl
theorem decodeRx_feedback (rest : List Byte) : decodeRx Config.iFeedback rest = decodeData .fb rest := rfl
theorem decodeRx_alarm (rest : List Byte) : decodeRx Config.iAlarm rest = decodeAlarm rest := rfl

theorem decodeRx_other {code : Byte} (h : acceptedCode code = false) (rest : List Byte) :
    decodeRx code rest = .ok (.unknownRx code, rest) := by
  simp only [acceptedCode, Bool.or_eq_false_iff, beq_eq_false_iff_ne] at h
  simp [decodeRx, h.1.1, h.1.2, h.2]

/-- The format `RD` is read where the bytes hold `len` data bytes and the check bytes (spec/30_encoding.md R54). -/
theorem decodeData_eq (mk : Byte → List Byte → Byte → Byte → Instr) (addr len lo hi : Byte) (data rest : List Byte)
    (h : data.length = len.toNat) :
    decodeData mk (addr :: len :: (data ++ lo :: hi :: rest)) = .ok (mk addr data lo hi, rest) := by
  simp [decodeData, ← h]

/-- What reading the format `RD` answers, if it answers an instruction. -/
theorem decodeData_cases {mk : Byte → List Byte → Byte → Byte → Instr} {bs : List Byte} {i : Instr}
    {rest : List Byte} (h : decodeData mk bs = .ok (i, rest)) :
    ∃ addr len data lo hi, data.length = len.toNat ∧ i = mk addr data lo hi ∧
      bs = addr :: len :: (data ++ lo :: hi :: rest) := by
  unfold decodeData at h
  split at h
  · rename_i addr len tail
    split at h
    · rename_i lo hi rest' hd
      cases h
      refine ⟨addr, len, tail.take len.toNat, lo, hi, ?_, rfl, ?_⟩
      · have := congrArg List.length hd
        simp only [List.length_drop, List.length_cons] at this
        simp only [List.length_take]
        omega
      · rw [← hd, List.take_append_drop]
    · cases h
  · cases h

/-- What reading the format `AL` answers, if it answers an instruction. -/
theorem decodeAlarm_cases {bs : List Byte} {i : Instr} {rest : List Byte} (h : decodeAlarm bs = .ok (i, rest)) :
    ∃ l t lo hi, i = .alarm l t lo hi ∧ bs = l :: t :: lo :: hi :: rest := by
  unfold decodeAlarm at h
  split at h
  · cases h
    exact ⟨_, _, _, _, rfl, rfl⟩
  · cases h

end Sys2Proof
end

