-- ==== Sys2Proof/Laws/State.lean ====
section
/-!
SUPPORT. One lemma per field per update of State, so that no later proof unfolds a record update.
-/

namespace Sys2Proof.Machine

variable (s : State) (r : Result) (addr : Byte) (data : List Byte) (p : Byte)

@[simp] theorem emit_regMap : (s.emit r).regMap = s.regMap := rfl
@[simp] theorem emit_dec : (s.emit r).dec = s.dec := rfl
@[simp] theorem emit_regmapInit : (s.emit r).regmapInit = s.regmapInit := rfl
@[simp] theorem emit_todo : (s.emit r).todo = s.todo := rfl
@[simp] theorem emit_results : (s.emit r).results = s.results ++ [r] := rfl

@[simp] theorem framingReset_regMap : s.framingReset.regMap = s.regMap := rfl
@[simp] theorem framingReset_dec : s.framingReset.dec = Decoder.hunting s.dec.prev := rfl
@[simp] theorem framingReset_regmapInit : s.framingReset.regmapInit = s.regmapInit := rfl
@[simp] theorem framingReset_todo : s.framingReset.todo = s.todo := rfl
@[simp] theorem framingReset_results : s.framingReset.results = s.results := rfl

@[simp] theorem commit_regMap : (s.commit addr data).regMap = memWrite s.regMap addr.toNat data := rfl
@[simp] theorem commit_dec : (s.commit addr data).dec = s.dec := rfl
@[simp] theorem commit_regmapInit : (s.commit addr data).regmapInit = s.regmapInit := rfl
@[simp] theorem commit_todo : (s.commit addr data).todo = s.todo := rfl
@[simp] theorem commit_results : (s.commit addr data).results = s.results := rfl

@[simp] theorem hunting_synced : (Decoder.hunting p).synced = false := rfl
@[simp] theorem hunting_instruction : (Decoder.hunting p).instruction = none := rfl
@[simp] theorem hunting_payloadBuf : (Decoder.hunting p).payloadBuf = [] := rfl
@[simp] theorem hunting_expectedLen : (Decoder.hunting p).expectedLen = none := rfl
@[simp] theorem hunting_prev : (Decoder.hunting p).prev = p := rfl

end Sys2Proof.Machine
end

