-- ==== Sys2Proof/Laws/Memory.lean ====
section
/-!
SUPPORT. The Register Map's operations: a read after a write (spec/20_memory.md R37, R40), and every operation keeps
the canonical form.
-/

namespace Sys2Proof.Machine

theorem Memory.wfFrom_cons {lo a : Nat} {v : Byte} {m : Memory} :
    Memory.wfFrom lo ((a, v) :: m) = true ↔
      lo ≤ a ∧ a < Config.regMapSize ∧ v ≠ unlistedByte ∧ Memory.wfFrom (a + 1) m = true := by
  simp [Memory.wfFrom, and_assoc]

theorem Memory.wfFrom_anti {lo lo' : Nat} {m : Memory} (h : Memory.wfFrom lo m = true) (hl : lo' ≤ lo) :
    Memory.wfFrom lo' m = true := by
  cases m with
  | nil => rfl
  | cons c m =>
    obtain ⟨a, v⟩ := c
    rw [Memory.wfFrom_cons] at h ⊢
    exact ⟨by omega, h.2⟩

/-- Below the first listed address every address is unlisted. -/
theorem Memory.read_below {lo a : Nat} {m : Memory} (h : Memory.wfFrom lo m = true) (ha : a < lo) :
    m.read a = unlistedByte := by
  induction m generalizing lo with
  | nil => rfl
  | cons c m ih =>
    obtain ⟨a', v⟩ := c
    rw [Memory.wfFrom_cons] at h
    simp only [Memory.read]
    rw [if_neg (by omega)]
    exact ih h.2.2.2 (by omega)

/-- A cell put before addresses that all lie above it reads as its byte. -/
theorem Memory.read_consCell {a b : Nat} {v : Byte} {m : Memory} (h : Memory.wfFrom (a + 1) m = true) :
    (Memory.consCell a v m).read b = if b = a then v else m.read b := by
  unfold Memory.consCell
  split
  · rename_i hv
    split
    · rename_i hb
      subst hb; subst hv
      exact Memory.read_below h (by omega)
    · rfl
  · simp only [Memory.read, eq_comm]

theorem Memory.wfFrom_consCell {lo a : Nat} {v : Byte} {m : Memory} (h : Memory.wfFrom (a + 1) m = true)
    (hl : lo ≤ a) (ha : a < Config.regMapSize) : Memory.wfFrom lo (Memory.consCell a v m) = true := by
  unfold Memory.consCell
  split
  · exact Memory.wfFrom_anti h (by omega)
  · rename_i hv
    exact Memory.wfFrom_cons.mpr ⟨hl, ha, hv, h⟩

/-- Reading an entry after a write of one: the value written at its address, the old value elsewhere. -/
theorem Memory.read_write_from {lo a b : Nat} {v : Byte} {m : Memory} (h : Memory.wfFrom lo m = true) :
    (m.write a v).read b = if b = a then v else m.read b := by
  induction m generalizing lo with
  | nil => exact Memory.read_consCell rfl
  | cons c m ih =>
    obtain ⟨a', v'⟩ := c
    have h' := Memory.wfFrom_cons.mp h
    simp only [Memory.write]
    split
    · exact Memory.read_consCell (Memory.wfFrom_cons.mpr ⟨by omega, h'.2⟩)
    · split
      · rename_i _ he
        subst he
        rw [Memory.read_consCell h'.2.2.2]
        split
        · rfl
        · simp only [Memory.read]; rw [if_neg (by omega)]
      · simp only [Memory.read]
        rw [ih h'.2.2.2]
        split
        · rw [if_neg (by omega)]
        · rfl

theorem Memory.read_write {a b : Nat} {v : Byte} {m : Memory} (h : m.wf = true) :
    (m.write a v).read b = if b = a then v else m.read b :=
  Memory.read_write_from h

theorem Memory.wfFrom_write {lo a : Nat} {v : Byte} {m : Memory} (h : Memory.wfFrom lo m = true)
    (hl : lo ≤ a) (ha : a < Config.regMapSize) : Memory.wfFrom lo (m.write a v) = true := by
  induction m generalizing lo with
  | nil => exact Memory.wfFrom_consCell rfl hl ha
  | cons c m ih =>
    obtain ⟨a', v'⟩ := c
    have h' := Memory.wfFrom_cons.mp h
    simp only [Memory.write]
    split
    · exact Memory.wfFrom_consCell (Memory.wfFrom_cons.mpr ⟨by omega, h'.2⟩) hl ha
    · split
      · rename_i _ he
        subst he
        exact Memory.wfFrom_consCell h'.2.2.2 hl ha
      · exact Memory.wfFrom_cons.mpr ⟨h'.1, h'.2.1, h'.2.2.1, ih h'.2.2.2 (by omega)⟩

/-- A write inside the map keeps the canonical form. -/
theorem Memory.wf_write {a : Nat} {v : Byte} {m : Memory} (h : m.wf = true) (ha : a < Config.regMapSize) :
    (m.write a v).wf = true :=
  Memory.wfFrom_write h (Nat.zero_le a) ha

/-- The range update keeps the canonical form, whatever its range. -/
theorem Memory.wf_memWrite {a : Nat} {vs : List Byte} {m : Memory} (h : m.wf = true) :
    (memWrite m a vs).wf = true := by
  induction vs generalizing a m with
  | nil => exact h
  | cons v vs ih =>
    simp only [memWrite]
    split
    · rename_i ha
      exact ih (Memory.wf_write h ha)
    · exact ih h

@[simp] theorem memWrite_nil (m : Memory) (a : Nat) : memWrite m a [] = m := rfl

/-- Reading an entry after the range update: the data byte inside the range and the map, the old value elsewhere. -/
theorem Memory.read_memWrite {a b : Nat} {vs : List Byte} {m : Memory} (h : m.wf = true) :
    (memWrite m a vs).read b =
      if a ≤ b ∧ b < a + vs.length ∧ b < Config.regMapSize then vs.getD (b - a) unlistedByte else m.read b := by
  induction vs generalizing a m with
  | nil => simp only [memWrite, List.length_nil]; rw [if_neg (by omega)]
  | cons v vs ih =>
    simp only [memWrite, List.length_cons]
    by_cases ha : a < Config.regMapSize
    · rw [if_pos ha, ih (Memory.wf_write h ha), Memory.read_write h]
      by_cases hb : b = a
      · subst hb
        rw [if_neg (by omega), if_pos rfl, if_pos (by omega)]
        simp
      · by_cases hin : a + 1 ≤ b ∧ b < a + 1 + vs.length ∧ b < Config.regMapSize
        · rw [if_pos hin, if_pos (by omega)]
          obtain ⟨k, rfl⟩ : ∃ k, b = a + 1 + k := ⟨b - (a + 1), by omega⟩
          rw [show a + 1 + k - (a + 1) = k by omega, show a + 1 + k - a = k + 1 by omega]
          simp
        · rw [if_neg hin, if_neg hb, if_neg (by omega)]
    · rw [if_neg ha, ih h, if_neg (by omega), if_neg (by omega)]

/-- Maps in canonical form that read alike are equal data. -/
theorem Memory.ext_from {lo : Nat} {m m' : Memory} (h : Memory.wfFrom lo m = true)
    (h' : Memory.wfFrom lo m' = true) (hr : ∀ a, m.read a = m'.read a) : m = m' := by
  induction m generalizing lo m' with
  | nil =>
    cases m' with
    | nil => rfl
    | cons c t =>
      obtain ⟨a, v⟩ := c
      have hw := Memory.wfFrom_cons.mp h'
      have := hr a
      simp only [Memory.read, if_pos] at this
      exact absurd this.symm hw.2.2.1
  | cons c t ih =>
    obtain ⟨a, v⟩ := c
    have hw := Memory.wfFrom_cons.mp h
    have hra := hr a
    simp only [Memory.read, if_pos] at hra
    cases m' with
    | nil => exact absurd hra hw.2.2.1
    | cons c' t' =>
      obtain ⟨a', v'⟩ := c'
      have hw' := Memory.wfFrom_cons.mp h'
      have hra' := hr a'
      simp only [Memory.read, if_pos] at hra'
      have haa : a = a' := by
        rcases Nat.lt_trichotomy a a' with hlt | heq | hgt
        · simp only [Memory.read, if_neg (show ¬a' = a by omega)] at hra
          exact absurd (hra.trans (Memory.read_below hw'.2.2.2 (by omega))) hw.2.2.1
        · exact heq
        · simp only [if_neg (show ¬a = a' by omega)] at hra'
          exact absurd (hra'.symm.trans (Memory.read_below hw.2.2.2 (by omega))) hw'.2.2.1
      subst haa
      simp only [Memory.read, if_pos] at hra
      subst hra
      congr 1
      refine ih hw.2.2.2 hw'.2.2.2 fun b => ?_
      by_cases hb : b ≤ a
      · rw [Memory.read_below hw.2.2.2 (by omega), Memory.read_below hw'.2.2.2 (by omega)]
      · have := hr b
        simp only [Memory.read] at this
        rwa [if_neg (by omega), if_neg (by omega)] at this

/-- Maps in canonical form that read alike are equal data. -/
theorem Memory.ext_of_read {m m' : Memory} (h : m.wf = true) (h' : m'.wf = true)
    (hr : ∀ a, m.read a = m'.read a) : m = m' :=
  Memory.ext_from h h' hr

/-- MemRead after MemWrite over the same range inside the map gives the bytes written. -/
theorem memRead_eq_of_read {m : Memory} {a : Nat} {vs : List Byte} (hs : a + vs.length ≤ Config.regMapSize)
    (hr : ∀ i, i < vs.length → m.read (a + i) = vs.getD i unlistedByte) : memRead m a vs.length = vs := by
  induction vs generalizing a with
  | nil => rfl
  | cons v vs ih =>
    simp only [List.length_cons] at hs hr ⊢
    simp only [memRead]
    rw [if_pos (by omega)]
    have h0 := hr 0 (by omega)
    simp at h0
    rw [h0, ih (by omega)]
    intro i hi
    have := hr (i + 1) (by omega)
    simp at this ⊢
    rwa [show a + 1 + i = a + (i + 1) by omega]

end Sys2Proof.Machine
end

