-- ==== Sys2Proof/Laws/Ops.lean ====
section
/-!
SUPPORT. What each shared operation and each meaning can do, said once.
-/

namespace Sys2Proof.Machine

/-- The discard procedure always goes on (spec/60_exceptions.md R121). -/
theorem discard_eq (c : Cause) (s : State) : discard c s = .next (s.framingReset.emit (.fed none)) := rfl

/-- A complete frame goes on in one of two ways (spec/41_frame_decoder.md R100, R96). -/
theorem completeFrame_cases {h : List Byte} {lo hi : Byte} {f : State → State} {e : Event} {s t : State}
    (hn : completeFrame h lo hi f e s = .next t) :
    (verdict h lo hi = true ∧ t = (f s).framingReset.emit (.fed (some e))) ∨
      (verdict h lo hi = false ∧ t = s.framingReset.emit (.fed none)) := by
  unfold completeFrame at hn
  split at hn
  · rename_i hv
    exact .inl ⟨hv, by cases hn; rfl⟩
  · rename_i hv
    exact .inr ⟨by simpa using hv, by cases hn; rfl⟩

theorem completeFrame_valid {h : List Byte} {lo hi : Byte} (f : State → State) (e : Event) (s : State)
    (hv : verdict h lo hi = true) : completeFrame h lo hi f e s = .next ((f s).framingReset.emit (.fed (some e))) := by
  simp [completeFrame, hv]

theorem completeFrame_invalid {h : List Byte} {lo hi : Byte} (f : State → State) (e : Event) (s : State)
    (hv : verdict h lo hi = false) : completeFrame h lo hi f e s = .next (s.framingReset.emit (.fed none)) := by
  simp [completeFrame, hv, discard]

/-- The verdict is true exactly on the two check bytes of the header (spec/40_crc16.md R75). -/
theorem verdict_iff {h : List Byte} {lo hi : Byte} :
    verdict h lo hi = true ↔ lo = lo8 (crc16 h) ∧ hi = hi8 (crc16 h) := by
  simp [verdict]

/-- What an instruction of a received row can leave (spec/41_frame_decoder.md R86 to R89): the framing reset and one
FEED result, after a commit where the result is a `ReadResponse` or a `Feedback`. -/
theorem exec_toHost_cases {i : Instr} (hd : i.direction = .toHost) (s : State) :
    exec i s = .next (s.framingReset.emit (.fed none)) ∨
      (∃ l t, exec i s = .next (s.framingReset.emit (.fed (some (.alarm l t))))) ∨
      ∃ addr data e, (e = .readResponse addr data ∨ e = .feedback addr data) ∧
        exec i s = .next ((s.commit addr data).framingReset.emit (.fed (some e))) := by
  cases i with
  | rdReq a l => cases hd
  | wr a d => cases hd
  | rdRsp a d lo hi =>
    simp only [exec, execRdRsp]
    cases hv : verdict (dataHeader Config.iRead a d) lo hi with
    | true => exact .inr (.inr ⟨a, d, _, .inl rfl, completeFrame_valid _ _ s hv⟩)
    | false => exact .inl (completeFrame_invalid _ _ s hv)
  | fb a d lo hi =>
    simp only [exec, execFb]
    cases hv : verdict (dataHeader Config.iFeedback a d) lo hi with
    | true => exact .inr (.inr ⟨a, d, _, .inr rfl, completeFrame_valid _ _ s hv⟩)
    | false => exact .inl (completeFrame_invalid _ _ s hv)
  | alarm l t lo hi =>
    simp only [exec, execAlarm]
    cases hv : verdict (alarmHeader l t) lo hi with
    | true => exact .inr (.inl ⟨l, t, completeFrame_valid _ _ s hv⟩)
    | false => exact .inl (completeFrame_invalid _ _ s hv)
  | unknownRx c => exact .inl rfl

end Sys2Proof.Machine
end

