-- ==== Sys2Proof/Laws/Fetch.lean ====
section
/-!
SUPPORT. What one transaction comes to, phase by phase, so that no later proof unfolds `fetch`.
-/

namespace Sys2Proof.Machine

@[simp] theorem fetch_nil {s : State} (h : s.todo = []) : fetch s = .done (.next s) := by simp [fetch, h]

@[simp] theorem fetch_cons {s : State} {t : Txn} {rest : List Txn} (h : s.todo = t :: rest) :
    fetch s = transact t { s with todo := rest } := by simp [fetch, h]

@[simp] theorem finish_done (o : Host.Outcome State Fault Refusal) : finish (.done o) = o := rfl
@[simp] theorem finish_run (i : Instr) (t : State) : finish (.run i t) = exec i t := rfl

theorem step_idle {s : State} (h : s.todo = []) : step s = .next s := by rw [step, fetch_nil h, finish_done]

/-- A step performs the first transaction. -/
theorem step_cons {s : State} {t : Txn} {rest : List Txn} (h : s.todo = t :: rest) :
    step s = finish (transact t { s with todo := rest }) := by rw [step, fetch_cons h]

theorem step_feed {s : State} {b : Byte} {rest : List Txn} (h : s.todo = .feed b :: rest) :
    step s = finish (feed b { s with todo := rest }) := step_cons h

theorem feed_hunting (b : Byte) {s : State} (h : s.dec.synced = false) :
    feed b s = feedHunt s.dec.prev b { s.dec with prev := b } s := by
  simp [feed, h]

theorem feed_instr (b : Byte) {s : State} (h : s.dec.synced = true) (hi : s.dec.instruction = none) :
    feed b s = feedInstr b { s.dec with prev := b } s := by
  simp [feed, h, hi]

theorem feed_payload (b : Byte) {s : State} {c : Byte} (h : s.dec.synced = true)
    (hi : s.dec.instruction = some c) : feed b s = feedPayload c b { s.dec with prev := b } s := by
  simp [feed, h, hi]

/-- The byte of an unknown instruction runs it at once (R89). -/
theorem feedInstr_unknown {b : Byte} (h : acceptedCode b = false) (d : Decoder) (s : State) :
    feedInstr b d s = .run (.unknownRx b) { s with dec := d } := by
  have h' := h
  simp only [acceptedCode, Bool.or_eq_false_iff, beq_eq_false_iff_ne] at h'
  have hd : decode .toHost (frameHead b) = .ok (.unknownRx b, []) := by
    have := decodeRx_other h []
    rw [← decode_toHost_frameHead] at this
    simpa using this
  simp [feedInstr, h'.1.1, h'.1.2, h'.2, runReceived, hd]

@[simp] theorem runs_zero (s : State) : runs 0 s = .next s := rfl

theorem runs_succ (k : Nat) (s : State) :
    runs (k + 1) s = match step s with
      | .next t => runs k t
      | .fault r => .fault r
      | .refused r => .refused r := rfl

theorem runs_succ_of_next {k : Nat} {s t : State} (h : step s = .next t) : runs (k + 1) s = runs k t := by
  rw [runs_succ, h]

/-- The host's runs, unfolded once. -/
theorem core_run_succ (M : Host.Core) (k : Nat) (s : M.State) :
    M.run (k + 1) s = match M.step s with
      | .next t => M.run k t
      | .fault r => .fault r
      | .refused r => .refused r := rfl

/-- `runs` is the host's `Core.run` of the machine. -/
theorem runs_eq_core_run (k : Nat) (s : State) : runs k s = Host.Core.run Sys2Proof.core k s := by
  induction k generalizing s with
  | zero => rfl
  | succ k ih =>
    refine Eq.trans ?_ (core_run_succ Sys2Proof.core k s).symm
    rw [runs_succ]
    cases h : step s with
    | next t =>
      have h' : Sys2Proof.core.step s = .next t := h
      rw [h']; exact ih t
    | fault r =>
      have h' : Sys2Proof.core.step s = .fault r := h
      rw [h']; rfl
    | refused r =>
      have h' : Sys2Proof.core.step s = .refused r := h
      rw [h']; rfl

/-- Runs of transactions join. -/
theorem runs_add {k n : Nat} {s t : State} (h : runs k s = .next t) : runs (k + n) s = runs n t := by
  induction k generalizing s with
  | zero => rw [runs_zero] at h; cases h; simp
  | succ k ih =>
    rw [Nat.add_right_comm, runs_succ]
    rw [runs_succ] at h
    cases hs : step s with
    | next u => rw [hs] at h; exact ih h
    | fault r => rw [hs] at h; cases h
    | refused r => rw [hs] at h; cases h

end Sys2Proof.Machine
end

