-- ==== Sys2Proof/Laws/Decoder.lean ====
section
/-!
SUPPORT. What a legal decoder state looks like, phase by phase, and everything one FEED can do from it, said once
(`feed_cases`), so that later proofs unfold neither `Decoder.wf` nor `feed`.
-/

namespace Sys2Proof

open Machine

/-- A received frame the decoder answers is a row of the receive side. -/
theorem decode_toHost_direction {bs : List Byte} {i : Instr} {rest : List Byte}
    (h : decode .toHost bs = .ok (i, rest)) : i.direction = .toHost := by
  unfold decode at h
  split at h
  · rename_i m0 m1 code r
    split at h
    · simp only [decodeRx] at h
      split at h
      · obtain ⟨a, len, data, lo, hi, hl, rfl, rfl⟩ := decodeData_cases h
        rfl
      · split at h
        · obtain ⟨a, len, data, lo, hi, hl, rfl, rfl⟩ := decodeData_cases h
          rfl
        · split at h
          · obtain ⟨l, t, lo, hi, rfl, rfl⟩ := decodeAlarm_cases h
            rfl
          · cases h
            rfl
    · cases h
  · cases h

namespace Machine

/-- The invariants of spec/10_state.md R25, one by one. -/
theorem wf_iff (d : Decoder) :
    d.wf = true ↔
      (d.instruction = none ∨ d.synced = true) ∧ (d.payloadBuf = [] ∨ d.instruction ≠ none) ∧
      (∀ c, d.instruction = some c → c = 3#8 ∨ c = 5#8 ∨ c = 8#8) ∧
      d.expectedLen = expectedLenOf d.instruction d.payloadBuf ∧
      (∀ e, d.expectedLen = some e → d.payloadBuf.length < e) ∧ d.payloadBuf.length < 259 := by
  have h1 : legalInstruction d.instruction = true ↔ ∀ c, d.instruction = some c → c = 3#8 ∨ c = 5#8 ∨ c = 8#8 := by
    cases d.instruction with
    | none => simp [legalInstruction]
    | some c => simp [legalInstruction, Config.iRead, Config.iFeedback, Config.iAlarm, or_assoc]
  have h2 : belowExpected d.expectedLen d.payloadBuf.length = true ↔
      ∀ e, d.expectedLen = some e → d.payloadBuf.length < e := by
    cases d.expectedLen <;> simp [belowExpected]
  simp only [Decoder.wf, Bool.and_eq_true, Bool.or_eq_true, beq_iff_eq, bne_iff_ne, decide_eq_true_eq, Config.bufCap,
    h1, h2]
  tauto

theorem wf_hunting (p : Byte) : (Decoder.hunting p).wf = true := by
  simp [wf_iff, expectedLenOf]

/-- A hunting decoder is in the state the framing reset leaves (phase HUNT). -/
theorem eq_hunting_of_wf {d : Decoder} (h : d.wf = true) (hs : d.synced = false) : d = Decoder.hunting d.prev := by
  obtain ⟨h1, h2, h3, h4, h5, h6⟩ := (wf_iff d).mp h
  obtain ⟨sy, ins, buf, ex, pv⟩ := d
  simp_all [Decoder.hunting, expectedLenOf]

/-- No payload before the instruction (phases HUNT and INSTR). -/
theorem wf_none {d : Decoder} (h : d.wf = true) (hi : d.instruction = none) :
    d.payloadBuf = [] ∧ d.expectedLen = none := by
  obtain ⟨h1, h2, h3, h4, h5, h6⟩ := (wf_iff d).mp h
  simp_all [expectedLenOf]

/-- Phases HEAD, BODY and ALARM. -/
theorem wf_some {d : Decoder} {c : Byte} (h : d.wf = true) (hi : d.instruction = some c) :
    d.synced = true ∧ (c = 3#8 ∨ c = 5#8 ∨ c = 8#8) ∧ d.expectedLen = expectedLenOf (some c) d.payloadBuf ∧
      (∀ e, d.expectedLen = some e → d.payloadBuf.length < e) ∧ d.payloadBuf.length < 259 := by
  obtain ⟨h1, h2, h3, h4, h5, h6⟩ := (wf_iff d).mp h
  exact ⟨by simpa [hi] using h1, h3 c hi, hi ▸ h4, h5, h6⟩

theorem inv_iff (s : State) :
    s.inv = true ↔ s.regMap.wf = true ∧ s.regmapInit.wf = true ∧ s.dec.wf = true := by
  simp [State.inv, and_assoc]

/-! ## `expectedLen` -/

@[simp] theorem expectedLenOf_none (buf : List Byte) : expectedLenOf none buf = none := rfl

@[simp] theorem expectedLenOf_alarm (buf : List Byte) : expectedLenOf (some 8#8) buf = some 4 := rfl

/-- The buffer of a data frame has no length until `len` has arrived. -/
theorem expectedLenOf_head {c : Byte} (hc : c = 3#8 ∨ c = 5#8) {buf : List Byte} (hb : buf.length < 2) :
    expectedLenOf (some c) buf = none := by
  rcases buf with _ | ⟨x, _ | ⟨y, l⟩⟩
  · rcases hc with rfl | rfl <;> rfl
  · rcases hc with rfl | rfl <;> rfl
  · simp only [List.length_cons] at hb; omega

@[simp] theorem expectedLenOf_data {c : Byte} (hc : c = 3#8 ∨ c = 5#8) (addr len : Byte) (buf : List Byte) :
    expectedLenOf (some c) (addr :: len :: buf) = some (len.toNat + 4) := by
  rcases hc with rfl | rfl <;> rfl

/-- What the FEED of a payload byte puts in `expectedLen` is what R25 item 4 asks of the longer buffer. -/
theorem nextExpected_eq {d : Decoder} {c b : Byte} (h : d.wf = true) (hi : d.instruction = some c) :
    nextExpected c (d.payloadBuf ++ [b]) d.expectedLen = expectedLenOf (some c) (d.payloadBuf ++ [b]) := by
  obtain ⟨_, hc, he, _, _⟩ := wf_some h hi
  rw [he]
  unfold nextExpected expectedLenOf
  rcases hc with rfl | rfl | rfl
  · rcases d.payloadBuf with _ | ⟨x, _ | ⟨y, l⟩⟩ <;> simp [Config.iRead, Config.iAlarm]
  · rcases d.payloadBuf with _ | ⟨x, _ | ⟨y, l⟩⟩ <;> simp [Config.iRead, Config.iFeedback, Config.iAlarm]
  · simp [Config.iRead, Config.iAlarm, Config.iFeedback]

/-- The length of a longer buffer: known before its last byte, or `len` is its last byte. -/
theorem expectedLenOf_snoc {c : Byte} (hc : c = 3#8 ∨ c = 5#8 ∨ c = 8#8) (buf : List Byte) (b : Byte) :
    expectedLenOf (some c) (buf ++ [b]) =
      if c ≠ 8#8 ∧ buf.length = 1 then some (b.toNat + 4) else expectedLenOf (some c) buf := by
  rcases hc with rfl | rfl | rfl
  · rcases buf with _ | ⟨x, _ | ⟨y, l⟩⟩ <;> simp [expectedLenOf, Config.iAlarm]
  · rcases buf with _ | ⟨x, _ | ⟨y, l⟩⟩ <;> simp [expectedLenOf, Config.iAlarm]
  · simp [expectedLenOf, Config.iAlarm]

/-- A buffer of two bytes or more has a length. -/
theorem lt_two_of_expectedLenOf_none {c : Byte} (hc : c = 3#8 ∨ c = 5#8 ∨ c = 8#8) {buf : List Byte}
    (h : expectedLenOf (some c) buf = none) : buf.length < 2 := by
  rcases buf with _ | ⟨x, _ | ⟨y, l⟩⟩
  · decide
  · simp
  · rcases hc with rfl | rfl | rfl <;> cases h

theorem expectedLenOf_le {c : Byte} {buf : List Byte} {e : Nat} (h : expectedLenOf (some c) buf = some e) :
    4 ≤ e ∧ e ≤ 259 := by
  unfold expectedLenOf at h
  dsimp only at h
  split at h
  · cases h; decide
  · split at h
    · rename_i len _
      simp only [Config.dataBufExtra, Option.some.injEq] at h
      have := len.isLt
      omega
    · cases h

/-- A complete buffer is a whole frame: the received bytes decode, with nothing left over (R94). -/
theorem decode_complete {c : Byte} {buf : List Byte} (hc : c = 3#8 ∨ c = 5#8 ∨ c = 8#8)
    (he : expectedLenOf (some c) buf = some buf.length) :
    ∃ i, decode .toHost (frameHead c ++ buf) = .ok (i, []) ∧
      ((c = 8#8 ∧ ∃ l t lo hi, i = .alarm l t lo hi ∧ buf = [l, t, lo, hi]) ∨
        ∃ addr len data lo hi, data.length = len.toNat ∧ buf = addr :: len :: (data ++ [lo, hi]) ∧
          ((c = 3#8 ∧ i = .rdRsp addr data lo hi) ∨ (c = 5#8 ∧ i = .fb addr data lo hi))) := by
  have key : c = 3#8 ∨ c = 5#8 →
      ∃ addr len data lo hi, data.length = len.toNat ∧ buf = addr :: len :: (data ++ [lo, hi]) := by
    intro hc
    rcases buf with _ | ⟨x, _ | ⟨y, l⟩⟩
    · rw [expectedLenOf_head hc (by decide)] at he
      cases he
    · rw [expectedLenOf_head hc (by simp)] at he
      cases he
    · rw [expectedLenOf_data hc, Option.some.injEq] at he
      simp only [List.length_cons] at he
      have h2 : (l.drop y.toNat).length = 2 := by rw [List.length_drop]; omega
      match hd : l.drop y.toNat, h2 with
      | [lo, hi], _ =>
        exact ⟨x, y, l.take y.toNat, lo, hi, by rw [List.length_take]; omega, by rw [← hd, List.take_append_drop]⟩
  rcases hc with rfl | rfl | rfl
  · obtain ⟨addr, len, data, lo, hi, hl, rfl⟩ := key (.inl rfl)
    exact ⟨_, decodeData_eq .rdRsp addr len lo hi data [] hl, .inr ⟨addr, len, data, lo, hi, hl, rfl, .inl ⟨rfl, rfl⟩⟩⟩
  · obtain ⟨addr, len, data, lo, hi, hl, rfl⟩ := key (.inr rfl)
    exact ⟨_, decodeData_eq .fb addr len lo hi data [] hl, .inr ⟨addr, len, data, lo, hi, hl, rfl, .inr ⟨rfl, rfl⟩⟩⟩
  · rw [expectedLenOf_alarm, Option.some.injEq] at he
    match buf, he with
    | [l, t, lo, hi], _ => exact ⟨_, rfl, .inl ⟨rfl, l, t, lo, hi, rfl, rfl⟩⟩

/-- Bytes that decode with nothing left over run what they decode to. -/
theorem runReceived_eq {bytes : List Byte} {i : Instr} (h : decode .toHost bytes = .ok (i, [])) (s : State) :
    runReceived bytes s = .run i s := by
  simp [runReceived, h]

/-! ## One FEED -/

/-- Phase INSTR: the byte is stored, or is an unknown instruction (R85 to R89). -/
theorem feedInstr_cases (b : Byte) (d : Decoder) (s : State) :
    ((b = 3#8 ∨ b = 5#8) ∧ feedInstr b d s = quiet { d with instruction := some b } s) ∨
      (b = 8#8 ∧ feedInstr b d s = quiet { d with instruction := some b, expectedLen := some 4 } s) ∨
      (b ≠ 3#8 ∧ b ≠ 5#8 ∧ b ≠ 8#8 ∧ feedInstr b d s = .run (.unknownRx b) { s with dec := d }) := by
  by_cases h : b = 3#8 ∨ b = 5#8
  · exact .inl ⟨h, if_pos h⟩
  · by_cases h8 : b = 8#8
    · subst h8
      exact .inr (.inl ⟨rfl, rfl⟩)
    · rw [not_or] at h
      exact .inr (.inr ⟨h.1, h.2, h8, feedInstr_unknown (by
        simp [acceptedCode, Config.iRead, Config.iFeedback, Config.iAlarm, h.1, h.2, h8]) d s⟩)

/-- Phases HEAD, BODY and ALARM, from a legal state: the byte is appended, or completes a whole frame, which is run
(R90 to R94). -/
theorem feedPayload_cases {s : State} {c : Byte} (b : Byte) (h : s.dec.wf = true) (hi : s.dec.instruction = some c) :
    let buf := s.dec.payloadBuf ++ [b]
    let d := { s.dec with prev := b, payloadBuf := buf, expectedLen := expectedLenOf (some c) buf }
    (expectedLenOf (some c) buf ≠ some buf.length ∧ d.wf = true ∧ feed b s = quiet d s) ∨
      (expectedLenOf (some c) buf = some buf.length ∧ s.dec.expectedLen = some buf.length ∧
        ∃ i, decode .toHost (frameHead c ++ buf) = .ok (i, []) ∧ feed b s = .run i { s with dec := d }) := by
  obtain ⟨hs, hc, he, hb, hl⟩ := wf_some h hi
  have hf : feed b s = feedPayload c b { s.dec with prev := b } s := feed_payload b hs hi
  have hlen : (s.dec.payloadBuf ++ [b]).length = s.dec.payloadBuf.length + 1 := by simp
  have hsn := expectedLenOf_snoc hc s.dec.payloadBuf b
  rw [← he] at hsn
  simp only [feedPayload, nextExpected_eq h hi] at hf
  by_cases hx : expectedLenOf (some c) (s.dec.payloadBuf ++ [b]) = some (s.dec.payloadBuf ++ [b]).length
  · obtain ⟨i, hd, _⟩ := decode_complete hc hx
    rw [if_pos hx, runReceived_eq hd] at hf
    refine .inr ⟨hx, ?_, i, hd, hf⟩
    rw [hx, hlen] at hsn
    split at hsn
    · rename_i h1
      have := b.isLt
      rw [Option.some.injEq] at hsn
      omega
    · rw [hlen, hsn]
  · rw [if_neg hx] at hf
    refine .inl ⟨hx, ?_, hf⟩
    have key : ∀ e, expectedLenOf (some c) (s.dec.payloadBuf ++ [b]) = some e →
        (s.dec.payloadBuf ++ [b]).length < e := by
      intro e hee
      have hne : e ≠ (s.dec.payloadBuf ++ [b]).length := fun h => hx (h ▸ hee)
      rw [hee] at hsn
      split at hsn
      · rename_i h1
        rw [Option.some.injEq] at hsn
        omega
      · have := hb e hsn.symm
        omega
    refine (wf_iff _).mpr ⟨.inr hs, .inr (by simp [hi]), fun c' hc' => ?_, by simp [hi], key, ?_⟩
    · simp only [hi, Option.some.injEq] at hc'
      exact hc' ▸ hc
    · show (s.dec.payloadBuf ++ [b]).length < 259
      cases hee : expectedLenOf (some c) (s.dec.payloadBuf ++ [b]) with
      | some e => exact Nat.lt_of_lt_of_le (key e hee) (expectedLenOf_le hee).2
      | none => exact Nat.lt_trans (lt_two_of_expectedLenOf_none hc hee) (by decide)

/-- Everything a FEED can do from a legal state: return `None` in a legal state, or run an instruction of a received
row, its byte in `prev`: the unknown instruction that the byte is, or the whole frame that it completes (R81). -/
theorem feed_cases {s : State} (b : Byte) (h : s.dec.wf = true) :
    (∃ d, d.prev = b ∧ d.wf = true ∧ feed b s = quiet d s) ∨
      ∃ d i, d.prev = b ∧ i.direction = .toHost ∧ feed b s = .run i { s with dec := d } ∧
        s.dec.synced = true ∧
        ((s.dec.instruction = none ∧ i = .unknownRx b) ∨
          ∃ c, s.dec.instruction = some c ∧ s.dec.expectedLen = some (s.dec.payloadBuf.length + 1) ∧
            decode .toHost (frameHead c ++ (s.dec.payloadBuf ++ [b])) = .ok (i, [])) := by
  cases hs : s.dec.synced with
  | false =>
    have hh := eq_hunting_of_wf h hs
    rw [feed_hunting b hs]
    unfold feedHunt
    split
    · refine .inl ⟨_, rfl, ?_, rfl⟩
      rw [hh]
      simp [wf_iff]
    · refine .inl ⟨_, rfl, ?_, rfl⟩
      rw [hh]
      exact wf_hunting b
  | true =>
    cases hi : s.dec.instruction with
    | none =>
      obtain ⟨hb, he⟩ := wf_none h hi
      rw [feed_instr b hs hi]
      rcases feedInstr_cases b { s.dec with prev := b } s with ⟨hc, hf⟩ | ⟨rfl, hf⟩ | ⟨_, _, _, hf⟩
      · exact .inl ⟨_, rfl, by
          rw [wf_iff]
          dsimp only
          rw [hb, he]
          exact ⟨.inr hs, .inl rfl, fun c h => by cases h; tauto, (expectedLenOf_head hc (by decide)).symm,
            fun e h => (by cases h), (by decide)⟩, hf⟩
      · exact .inl ⟨_, rfl, by simp [wf_iff, hs, hb], hf⟩
      · exact .inr ⟨_, _, rfl, rfl, hf, rfl, .inl ⟨rfl, rfl⟩⟩
    | some c =>
      rcases feedPayload_cases b h hi with ⟨_, hw, hf⟩ | ⟨_, he, i, hd, hf⟩
      · exact .inl ⟨_, rfl, hw, hf⟩
      · exact .inr ⟨_, i, rfl, decode_toHost_direction hd, hf, rfl, .inr ⟨c, rfl, by simpa using he, hd⟩⟩

end Machine

end Sys2Proof
end

