-- ==== Sys2Proof/Laws/PerInstr.lean ====
section
/-!
SUPPORT. One lemma per constructor of `Instr` about the instruction as bytes: how long its frame is
(spec/30_encoding.md R54).
-/

namespace Sys2Proof.Laws.FrameLength

/-- The bytes of a well-formed instruction are at least the three that decide it and at most the longest frame; a
whole frame has at least 7 (R54). -/
def Statement (i : Instr) : Prop :=
  i.wf = true → 3 ≤ (encode i).length ∧ (encode i).length ≤ 262 ∧
    (i = .unknownRx ((encode i).getD 2 0) ∨ 7 ≤ (encode i).length)

theorem rdReq (addr len : Byte) : Statement (.rdReq addr len) := by
  intro _; simp [encode]

theorem rdRsp (addr : Byte) (data : List Byte) (lo hi : Byte) : Statement (.rdRsp addr data lo hi) := by
  intro h
  have hl : data.length ≤ 255 := dataFits_iff.mp h
  simp [encode]; omega

theorem wr (addr : Byte) (data : List Byte) : Statement (.wr addr data) := by
  intro h
  have hl : data.length ≤ 255 := dataFits_iff.mp h
  simp [encode]; omega

theorem fb (addr : Byte) (data : List Byte) (lo hi : Byte) : Statement (.fb addr data lo hi) := by
  intro h
  have hl : data.length ≤ 255 := dataFits_iff.mp h
  simp [encode]; omega

theorem alarm (level type lo hi : Byte) : Statement (.alarm level type lo hi) := by
  intro _; simp [encode]

theorem unknownRx (code : Byte) : Statement (.unknownRx code) := by
  intro _; simp [encode, Machine.frameHead]

end Sys2Proof.Laws.FrameLength
end

