-- ==== Sys2Proof/Laws/Runs.lean ====
section
/-!
SUPPORT. Runs of FEEDs: what feeding the start marker and feeding payload bytes comes to, so that proofs over whole
frames join these with `runs_add` and unfold no `runs`.
-/

namespace Sys2Proof.Machine

@[simp] theorem feeds_nil : feeds [] = [] := rfl
@[simp] theorem feeds_cons (b : Byte) (bytes : List Byte) : feeds (b :: bytes) = .feed b :: feeds bytes := rfl
@[simp] theorem feeds_append (a b : List Byte) : feeds (a ++ b) = feeds a ++ feeds b := List.map_append

/-! ## Events -/

@[simp] theorem eventsOf_nil : eventsOf [] = [] := rfl
@[simp] theorem eventsOf_event (e : Event) (rs : List Result) : eventsOf (.fed (some e) :: rs) = e :: eventsOf rs := rfl
@[simp] theorem eventsOf_none (rs : List Result) : eventsOf (.fed none :: rs) = eventsOf rs := rfl
@[simp] theorem eventsOf_value (v : Byte) (rs : List Result) : eventsOf (.value v :: rs) = eventsOf rs := rfl
@[simp] theorem eventsOf_crc (c : Word16) (rs : List Result) : eventsOf (.crc c :: rs) = eventsOf rs := rfl
@[simp] theorem eventsOf_frame (bytes : List Byte) (rs : List Result) : eventsOf (.frame bytes :: rs) = eventsOf rs :=
  rfl
@[simp] theorem eventsOf_resetDone (rs : List Result) : eventsOf (.resetDone :: rs) = eventsOf rs := rfl

@[simp] theorem eventsOf_append (a b : List Result) : eventsOf (a ++ b) = eventsOf a ++ eventsOf b := by
  induction a with
  | nil => rfl
  | cons r a ih =>
    cases r with
    | fed e => cases e <;> simp [ih]
    | value v => simpa using ih
    | crc c => simpa using ih
    | frame bytes => simpa using ih
    | resetDone => simpa using ih

@[simp] theorem eventWrites_readResponse (m : Memory) (addr : Byte) (data : List Byte) :
    eventWrites m (.readResponse addr data) = memWrite m addr.toNat data := rfl
@[simp] theorem eventWrites_feedback (m : Memory) (addr : Byte) (data : List Byte) :
    eventWrites m (.feedback addr data) = memWrite m addr.toNat data := rfl
@[simp] theorem eventWrites_alarm (m : Memory) (level type : Byte) : eventWrites m (.alarm level type) = m := rfl

/-! ## Steps and runs -/

theorem runs_one (s : State) : runs 1 s = step s := by
  rw [runs_succ]
  cases step s <;> rfl

/-- `s` after `n` FEEDs that returned `None` and left the decoder state `d`. -/
def State.afterQuiet (s : State) (d : Decoder) (rest : List Txn) (n : Nat) : State :=
  { s with dec := d, todo := rest, results := s.results ++ List.replicate n (.fed none) }

@[simp] theorem afterQuiet_regMap (s : State) (d : Decoder) (rest : List Txn) (n : Nat) :
    (s.afterQuiet d rest n).regMap = s.regMap := rfl
@[simp] theorem afterQuiet_regmapInit (s : State) (d : Decoder) (rest : List Txn) (n : Nat) :
    (s.afterQuiet d rest n).regmapInit = s.regmapInit := rfl
@[simp] theorem afterQuiet_dec (s : State) (d : Decoder) (rest : List Txn) (n : Nat) :
    (s.afterQuiet d rest n).dec = d := rfl
@[simp] theorem afterQuiet_todo (s : State) (d : Decoder) (rest : List Txn) (n : Nat) :
    (s.afterQuiet d rest n).todo = rest := rfl
@[simp] theorem afterQuiet_results (s : State) (d : Decoder) (rest : List Txn) (n : Nat) :
    (s.afterQuiet d rest n).results = s.results ++ List.replicate n (.fed none) := rfl

@[simp] theorem afterQuiet_afterQuiet (s : State) (d d' : Decoder) (r r' : List Txn) (m n : Nat) :
    (s.afterQuiet d r m).afterQuiet d' r' n = s.afterQuiet d' r' (m + n) := by
  simp only [State.afterQuiet, List.replicate_add, List.append_assoc]

/-- A FEED that only moves the decoder, as a step. -/
theorem step_quiet {s : State} {b : Byte} {rest : List Txn} {d : Decoder} (h : s.todo = .feed b :: rest)
    (hf : feed b { s with todo := rest } = quiet d { s with todo := rest }) :
    step s = .next (s.afterQuiet d rest 1) := by
  rw [step_feed h, hf]
  rfl

/-- Hunting, then the two marker bytes: synchronised (spec/41_frame_decoder.md R83, R84). -/
theorem runs_marker {s : State} {rest : List Txn} (hs : s.dec.synced = false)
    (ht : s.todo = feeds [Config.marker0, Config.marker1] ++ rest) :
    runs 2 s = .next (s.afterQuiet { s.dec with synced := true, prev := Config.marker1 } rest 2) := by
  have e1 : step s = .next (s.afterQuiet { s.dec with prev := Config.marker0 } (.feed Config.marker1 :: rest) 1) := by
    refine step_quiet ht ?_
    rw [feed_hunting _ (by exact hs)]
    exact if_neg fun h => absurd h.2 (by decide)
  have e2 := step_quiet (s := s.afterQuiet { s.dec with prev := Config.marker0 } (.feed Config.marker1 :: rest) 1)
    (b := Config.marker1) (rest := rest) (d := { s.dec with synced := true, prev := Config.marker1 }) rfl (by
      rw [feed_hunting _ (by exact hs)]
      exact if_pos ⟨rfl, rfl⟩)
  rw [runs_succ_of_next e1, runs_one, e2, afterQuiet_afterQuiet]

/-- Payload bytes none of which completes the frame are buffered, whatever their values (R90 to R93). -/
theorem runs_payload (c : Byte) (bytes : List Byte) (s : State) (rest : List Txn) (hw : s.dec.wf = true)
    (hi : s.dec.instruction = some c) (ht : s.todo = feeds bytes ++ rest)
    (hne : ∀ k, 1 ≤ k → k ≤ bytes.length →
      expectedLenOf (some c) (s.dec.payloadBuf ++ bytes.take k) ≠ some (s.dec.payloadBuf.length + k)) :
    ∃ d, d.wf = true ∧ d.instruction = some c ∧ d.payloadBuf = s.dec.payloadBuf ++ bytes ∧
      d.prev = bytes.getLastD s.dec.prev ∧ runs bytes.length s = .next (s.afterQuiet d rest bytes.length) := by
  induction bytes generalizing s with
  | nil => exact ⟨s.dec, hw, hi, by simp, rfl, by simp at ht; simp [State.afterQuiet, ← ht]⟩
  | cons b bytes ih =>
    rcases feedPayload_cases (s := { s with todo := feeds bytes ++ rest }) b hw hi with ⟨_, hwd, hf⟩ | ⟨h1, _⟩
    · have e := step_quiet (rest := feeds bytes ++ rest) (by simpa using ht) hf
      rw [List.length_cons, runs_succ_of_next e]
      obtain ⟨d, h1, h2, h3, h4, h5⟩ := ih (s.afterQuiet { s.dec with
          prev := b, payloadBuf := s.dec.payloadBuf ++ [b],
          expectedLen := expectedLenOf (some c) (s.dec.payloadBuf ++ [b]) } (feeds bytes ++ rest) 1) hwd hi rfl (by
        intro k hk hk2
        have := hne (k + 1) (by omega) (by simpa using hk2)
        simpa [Nat.add_assoc, Nat.add_comm 1 k] using this)
      refine ⟨d, h1, h2, by simpa using h3, ?_, ?_⟩
      · rw [h4]
        cases bytes <;> rfl
      · rw [h5, afterQuiet_afterQuiet, Nat.add_comm]
    · exact absurd h1 (by simpa using hne 1 (by omega) (by simp))

/-- An instruction of a received row has one result and one effect on the Register Map, whatever the state. -/
theorem exec_toHost_uniform {i : Instr} (hd : i.direction = .toHost) :
    ∃ (e : Option Event) (f : Memory → Memory), ∀ s : State,
      exec i s = .next ({ s with regMap := f s.regMap }.framingReset.emit (.fed e)) := by
  cases i with
  | rdReq addr len => cases hd
  | wr addr data => cases hd
  | rdRsp addr data lo hi =>
    cases hv : verdict (dataHeader Config.iRead addr data) lo hi with
    | true => exact ⟨_, fun m => memWrite m addr.toNat data, fun s =>
        completeFrame_valid (fun t => t.commit addr data) (.readResponse addr data) s hv⟩
    | false => exact ⟨none, id, fun s =>
        completeFrame_invalid (fun t => t.commit addr data) (.readResponse addr data) s hv⟩
  | fb addr data lo hi =>
    cases hv : verdict (dataHeader Config.iFeedback addr data) lo hi with
    | true => exact ⟨_, fun m => memWrite m addr.toNat data, fun s =>
        completeFrame_valid (fun t => t.commit addr data) (.feedback addr data) s hv⟩
    | false => exact ⟨none, id, fun s =>
        completeFrame_invalid (fun t => t.commit addr data) (.feedback addr data) s hv⟩
  | alarm level type lo hi =>
    cases hv : verdict (alarmHeader level type) lo hi with
    | true => exact ⟨_, id, fun s => completeFrame_valid (fun t => t) (.alarm level type) s hv⟩
    | false => exact ⟨none, id, fun s => completeFrame_invalid (fun t => t) (.alarm level type) s hv⟩
  | unknownRx code => exact ⟨none, id, fun _ => rfl⟩

end Sys2Proof.Machine
end

