-- ==== Sys2Proof/Machine/Pseudo.lean ====
section
/-!
DEFINITION. The pseudo-instructions of spec/30_encoding.md R62: names for frames the builder makes. Their behaviour as
software (waiting, reading back, the 30 ms of spec/70_reset_and_hazards.md R143) is out of scope (spec/00_scope.md R4);
their expansions are data. An operand that R62 says the document leaves out is an argument. `clearOffsets` and
`leverRelease` have no address in any source (spec/91_not_in_source.md N9): it is an argument too.
-/

namespace Sys2Proof.Machine

def pseudoSetLock (v : Byte) : Instr := .wr 28 [v]
def pseudoSetSorting (v : Byte) : Instr := .wr 30 [v]
def pseudoSetButtonEnable (v : Byte) : Instr := .wr 66 [v]
def pseudoSetFeedbackFrequency (v : Byte) : Instr := .wr 67 [v]
def pseudoClearOffsets (addr v : Byte) : Instr := .wr addr [v]
def pseudoLeverRelease (addr v : Byte) : Instr := .wr addr [v]
/-- The three writes of `calibrateOffsets`, in order. -/
def pseudoCalibrateOffsets (unlock trigger lock : Byte) : List Instr :=
  [pseudoSetLock unlock, .wr 29 [trigger], pseudoSetLock lock]
def pseudoDeviceCode (n : Byte) : Instr := .rdReq 0 n
def pseudoVersion (n : Byte) : Instr := .rdReq 1 n
def pseudoMacAddress : Instr := .rdReq 2 6
def pseudoDeviceId (n : Byte) : Instr := .rdReq 11 n
def pseudoLeverOffsets (n : Byte) : Instr := .rdReq 13 n
def pseudoExecutionStatus (n : Byte) : Instr := .rdReq 68 n
def pseudoBinStatus (n : Byte) : Instr := .rdReq 69 n

end Sys2Proof.Machine
end

