-- ==== Sys2Proof/Tests/Slice0.lean ====
section
/-!
SUPPORT. The model's own tests. Expected values are those of spec/95_test_vectors.md (vector numbers V<n>, programs
P<n>) or read off the encoding tables of spec/30_encoding.md. The theorems named witness_… show that the hypotheses of
a statement of Certificates/Slice0/Obligations.lean are met together, at boundary values of its clauses.
-/

-- The kernel checks these theorems one after another: side by side, each waits in a thread of its own.
set_option Elab.async false

namespace Sys2Proof.Tests

open Machine

/-- The reset state with a given decoder and given transactions. -/
def start (d : Decoder) (todo : List Txn) : State := { State.reset with dec := d, todo := todo }

/-- The reset state with given transactions. -/
def withTodo (todo : List Txn) : State := { State.reset with todo := todo }

/-- The state a step or a run goes on with (the state itself where it does not go on). -/
def after (o : Host.Outcome State Fault Refusal) : State := (next? o).getD State.reset

theorem next_of_decide {o : Host.Outcome State Fault Refusal} (h : next? o = some (after o)) : o = .next (after o) := by
  cases o with
  | next s => rfl
  | fault r => cases h
  | refused r => cases h

/-- The refusal an outcome stops with, if it stops with one. -/
def refusal? : Host.Outcome State Fault Refusal → Option Refusal
  | .next _ => none
  | .fault _ => none
  | .refused r => some r

theorem refused_of_decide {o : Host.Outcome State Fault Refusal} {r : Refusal} (h : refusal? o = some r) :
    o = .refused r := by
  cases o with
  | next s => cases h
  | fault f => cases h
  | refused q => cases h; rfl

/-! ## Well-formedness: each check refuses an ill-formed term -/

theorem test_wf_refuses_long_rdRsp : (Instr.rdRsp 0 (List.replicate 256 0) 0 0).wf = false := by decide +kernel
theorem test_wf_refuses_long_wr : (Instr.wr 0 (List.replicate 256 0)).wf = false := by decide +kernel
theorem test_wf_refuses_long_fb : (Instr.fb 0 (List.replicate 256 0) 0 0).wf = false := by decide +kernel
theorem test_wf_refuses_accepted_codes :
    (Instr.unknownRx 0x03).wf = false ∧ (Instr.unknownRx 0x05).wf = false ∧ (Instr.unknownRx 0x08).wf = false := by
  decide
theorem test_wf_accepts_longest :
    (Instr.wr 0 (List.replicate 255 0)).wf = true ∧ (Instr.unknownRx 0x04).wf = true := by decide +kernel

/-! ## Decoding and encoding: frames written out from spec/30_encoding.md R49 to R51, R57 and the vectors -/

-- V9 row c
theorem test_decode_rdReq :
    decode .toDevice [0xAA, 0x77, 0x03, 0x02, 0x06, 0x56, 0xCE] = .ok (.rdReq 2 6, []) := by rfl
-- V12 row a
theorem test_decode_rdRsp :
    decode .toHost [0xAA, 0x77, 0x03, 0x0D, 0x04, 0x01, 0x02, 0x03, 0x04, 0xA8, 0x47] =
      .ok (.rdRsp 0x0D [0x01, 0x02, 0x03, 0x04] 0xA8 0x47, []) := by rfl
-- V10 row c
theorem test_decode_wr :
    decode .toDevice [0xAA, 0x77, 0x04, 0x1E, 0x01, 0x02, 0x0D, 0x7D] = .ok (.wr 0x1E [0x02], []) := by rfl
-- V12 row g
theorem test_decode_fb :
    decode .toHost [0xAA, 0x77, 0x05, 0x44, 0x01, 0x07, 0xEC, 0x91] = .ok (.fb 0x44 [0x07] 0xEC 0x91, []) := by rfl
-- V12 row p: the second alarm byte is never a length
theorem test_decode_alarm :
    decode .toHost [0xAA, 0x77, 0x08, 0x07, 0xFF, 0xE4, 0x1E] = .ok (.alarm 0x07 0xFF 0xE4 0x1E, []) := by rfl
-- R57: a write frame is an unknown instruction on the receive side
theorem test_decode_unknownRx :
    decode .toHost [0xAA, 0x77, 0x04, 0x1E, 0x01, 0x02, 0x0D, 0x7D] =
      .ok (.unknownRx 0x04, [0x1E, 0x01, 0x02, 0x0D, 0x7D]) := by rfl
theorem test_decode_refuses_no_marker : decode .toHost [0x77, 0xAA, 0x03] = .error .noMarker := by rfl
theorem test_decode_refuses_truncated : decode .toHost [0xAA, 0x77, 0x03, 0x00, 0x01, 0x00, 0x00] = .error .truncated := by
  rfl
theorem test_decode_refuses_no_command : decode .toDevice [0xAA, 0x77, 0x05, 0x00] = .error .notACommand := by rfl

-- V9 row c, V10 rows c and k, V12 rows a, g and m
theorem test_encode_rdReq : encode (.rdReq 2 6) = [0xAA, 0x77, 0x03, 0x02, 0x06, 0x56, 0xCE] := by decide +kernel
theorem test_encode_wr : encode (.wr 30 [0x02]) = [0xAA, 0x77, 0x04, 0x1E, 0x01, 0x02, 0x0D, 0x7D] := by decide +kernel
theorem test_encode_wr_empty : encode (.wr 0 []) = [0xAA, 0x77, 0x04, 0x00, 0x00, 0x66, 0x6D] := by decide +kernel
theorem test_encode_rdRsp : encode (rdRspFrame 0x0D [0x01, 0x02, 0x03, 0x04]) =
    [0xAA, 0x77, 0x03, 0x0D, 0x04, 0x01, 0x02, 0x03, 0x04, 0xA8, 0x47] := by decide +kernel
theorem test_encode_fb : encode (fbFrame 0x44 [0x07]) = [0xAA, 0x77, 0x05, 0x44, 0x01, 0x07, 0xEC, 0x91] := by
  decide +kernel
theorem test_encode_alarm : encode (alarmFrame 0x01 0x02) = [0xAA, 0x77, 0x08, 0x01, 0x02, 0x26, 0x3F] := by
  decide +kernel
-- V10 row a: setSorting(0)
theorem test_encode_setSorting : encode (pseudoSetSorting 0) = [0xAA, 0x77, 0x04, 0x1E, 0x01, 0x00, 0x8C, 0xBC] := by
  decide +kernel

-- the table's words (spec/30_encoding.md R55)
theorem test_table_rdRsp : decodeTableWord 24 0xAA7703 = some (.rdRsp 0 [] 0 0) := by decide +kernel
theorem test_table_wr : decodeTableWord 24 0xAA7704 = some (.wr 0 []) := by decide +kernel
theorem test_table_fb : decodeTableWord 24 0xAA7705 = some (.fb 0 [] 0 0) := by decide +kernel
theorem test_table_alarm : decodeTableWord 24 0xAA7708 = some (.alarm 0 0 0 0) := by decide +kernel
theorem test_table_unknown : decodeTableWord 24 0xAA7700 = some (.unknownRx 0) := by decide +kernel

/-! ## The CRC unit -/

-- V1, V2, V3
theorem test_reflect : reflect8 0x03 = 0xC0 ∧ reflect8 0x77 = 0xEE ∧ reflect16 0x1234 = 0x2C48 := by decide +kernel
theorem test_bitstep : bitstep 0x8000 = 0x8005 ∧ bitstep 0xFFFF = 0x7FFB ∧ bitstep 0x4000 = 0x8000 := by decide +kernel
theorem test_bytestep : bytestep 0xFFFF 0x00 = 0xFD02 := by decide +kernel
-- V6 rows p, q, r, g; V5 last row
theorem test_crc16_check_value : crc16 [0x31, 0x32, 0x33, 0x34, 0x35, 0x36, 0x37, 0x38, 0x39] = 0x4B37 := by
  decide +kernel
theorem test_crc16_tutorial : crc16 [0x01, 0x03, 0x00, 0x00, 0x00, 0x0A] = 0xCDC5 := by decide +kernel
theorem test_crcAcc_header : crcAcc [0xAA, 0x77, 0x08, 0x01, 0x02] = 0x64FC := by decide +kernel
theorem test_crc16Lsb : crc16Lsb [0xAA, 0x77, 0x08, 0x01, 0x02] = 0x3F26 := by decide +kernel

/-! ## One step -/

/-- A `0x03` frame one byte short, `len` 4 from address 0xFE (V21). -/
def bodyState (last : Byte) (rest : List Txn) : State :=
  start { synced := true, instruction := some 0x03,
          payloadBuf := [0xFE, 0x04, 0x11, 0x22, 0x33, 0x44, 0xAC], expectedLen := some 8, prev := 0xAC }
    (.feed last :: rest)

/-- A `0x05` frame one byte short (V14). -/
def fbState (last : Byte) (rest : List Txn) : State :=
  start { synced := true, instruction := some 0x05, payloadBuf := [0x44, 0x01, 0x07, 0xEC], expectedLen := some 5,
          prev := 0xEC } (.feed last :: rest)

/-- An alarm frame one byte short (V15). -/
def alarmState (last : Byte) (rest : List Txn) : State :=
  start { synced := true, instruction := some 0x08, payloadBuf := [0x01, 0x02, 0x26], expectedLen := some 4,
          prev := 0x26 } (.feed last :: rest)

/-- Synced, the instruction byte to come. -/
def instrState (b : Byte) (rest : List Txn) : State :=
  start { synced := true, instruction := none, payloadBuf := [], expectedLen := none, prev := 0x77 } (.feed b :: rest)

/-- Hunting after the byte `p`. -/
def huntState (p : Byte) (todo : List Txn) : State := start (Decoder.hunting p) todo

-- V21: the range past 255 is dropped, the event carries all four bytes
theorem test_rdRsp_truncates :
    (after (step (bodyState 0x7E []))).regMap = [(254, 0x11), (255, 0x22)] ∧
    (after (step (bodyState 0x7E []))).results = [.fed (some (.readResponse 0xFE [0x11, 0x22, 0x33, 0x44]))] := by
  decide +kernel
-- V31: one wrong check byte
theorem test_rdRsp_wrong_check :
    (after (step (bodyState 0x7F []))).regMap = [] ∧ (after (step (bodyState 0x7F []))).results = [.fed none] := by
  decide +kernel
-- V14
theorem test_fb : (after (step (fbState 0x91 []))).regMap = [(68, 0x07)] ∧
    (after (step (fbState 0x91 []))).results = [.fed (some (.feedback 0x44 [0x07]))] := by decide +kernel
-- V15
theorem test_alarm : (after (step (alarmState 0x3F []))).results = [.fed (some (.alarm 0x01 0x02))] ∧
    (after (step (alarmState 0x3F []))).dec = Decoder.hunting 0x3F := by decide +kernel
-- V48: a rejected instruction byte 0xAA stays in prev
theorem test_unknownRx : (after (step (instrState 0xAA []))).dec = Decoder.hunting 0xAA := by decide +kernel
-- V9 row j: no escaping
theorem test_rdReq : (after (step (withTodo [.buildRead 0xAA 0x77]))).results =
    [.frame [0xAA, 0x77, 0x03, 0xAA, 0x77, 0xE9, 0x2A]] := by decide +kernel
-- V10 row l
theorem test_wr : (after (step (withTodo [.buildWrite 16 [0xAA, 0x77]]))).results =
    [.frame [0xAA, 0x77, 0x04, 0x10, 0x02, 0xAA, 0x77, 0x71, 0xCB]] := by decide +kernel
-- V11: 256 data bytes are refused
theorem test_wr_refuses : next? (step (withTodo [.buildWrite 0 (List.replicate 256 0)])) = none := by decide +kernel
-- R26, R132 with a REGMAP_INIT that is not all zero (P5, P6)
theorem test_reset : (after (step { withTodo [.reset] with regmapInit := [(1, 0xEE)], regMap := [(2, 0x11)] })).regMap =
    [(1, 0xEE)] := by decide +kernel
-- R13, a listed and an unlisted entry
theorem test_regRead : (after (step { withTodo [.regRead 1] with regMap := [(1, 0xEE)] })).results = [.value 0xEE] ∧
    (after (step (withTodo [.regRead 1]))).results = [.value 0x00] := by decide +kernel
-- V23: len = 255 gives expectedLen 259, not 3
theorem test_expectedLen_is_natural :
    (after (step (start ⟨true, some 0x03, [0x00], none, 0x00⟩ [.feed 0xFF]))).dec.expectedLen = some 259 := by
  decide +kernel
-- each row's table word runs as the first instruction after reset
theorem test_table_words_run :
    (after (step (State.reset.withFetchWord 24 0xAA7703))).results = [.fed none] ∧
    (after (step (State.reset.withFetchWord 24 0xAA7704))).results =
      [.frame [0xAA, 0x77, 0x04, 0x00, 0x00, 0x66, 0x6D]] ∧
    (after (step (State.reset.withFetchWord 24 0xAA7705))).results = [.fed none] ∧
    (after (step (State.reset.withFetchWord 24 0xAA7708))).results = [.fed none] ∧
    (after (step (State.reset.withFetchWord 24 0xAA7700))).results = [.fed none] := by decide +kernel

/-! ## Witnesses: the hypotheses of the statements are met together -/

theorem witness_ReflectionReversesBits : (7 < 8) ∧ (15 < 16) := by decide
theorem witness_SingleBitFlipChangesCrc : (0 < 8) ∧ (7 < 8) := by decide
theorem witness_BuildWriteReturnsFrame :
    (List.replicate 255 (0 : Byte)).length ≤ 255 ∧ ([] : List Byte).length ≤ 255 := by decide +kernel
theorem witness_BuildWriteRefusesLongData : 255 < (List.replicate 256 (0 : Byte)).length := by decide +kernel

theorem witness_OnlyTheBuilderTransmits_read :
    (withTodo [.buildRead 2 6]).todo = [.buildRead 2 6] ∧
    step (withTodo [.buildRead 2 6]) = .next (after (step (withTodo [.buildRead 2 6]))) :=
  ⟨rfl, next_of_decide (by decide +kernel)⟩
theorem witness_OnlyTheBuilderTransmits_write :
    (withTodo [.buildWrite 30 [2]]).todo = [.buildWrite 30 [2]] ∧
    step (withTodo [.buildWrite 30 [2]]) = .next (after (step (withTodo [.buildWrite 30 [2]]))) :=
  ⟨rfl, next_of_decide (by decide +kernel)⟩
theorem witness_OnlyTheBuilderTransmits_feed :
    (bodyState 0x7E []).todo = [.feed 0x7E] ∧ step (bodyState 0x7E []) = .next (after (step (bodyState 0x7E []))) :=
  ⟨rfl, next_of_decide (by decide +kernel)⟩

-- V12 row e (past 255) and row f (address 255) for 0x03, row k (no data) for 0x05
theorem witness_ValidDataFrameCommits :
    State.reset.regMap.wf = true ∧
    ((0xAC : Byte) = (crc16 ([0xAA, 0x77, 0x03, 0xFE, 4] ++ [0x11, 0x22, 0x33, 0x44])).extractLsb' 0 8 ∧
      (0x7E : Byte) = (crc16 ([0xAA, 0x77, 0x03, 0xFE, 4] ++ [0x11, 0x22, 0x33, 0x44])).extractLsb' 8 8) ∧
    ((0x5D : Byte) = (crc16 ([0xAA, 0x77, 0x03, 0xFF, 1] ++ [0x5A])).extractLsb' 0 8 ∧
      (0xC5 : Byte) = (crc16 ([0xAA, 0x77, 0x03, 0xFF, 1] ++ [0x5A])).extractLsb' 8 8) ∧
    (0x3A : Byte) = (crc16 ([0xAA, 0x77, 0x05, 0x10, 0] ++ [])).extractLsb' 0 8 ∧
      (0x6D : Byte) = (crc16 ([0xAA, 0x77, 0x05, 0x10, 0] ++ [])).extractLsb' 8 8 := by decide +kernel
theorem witness_ValidAlarmReturnsEvent :
    (0x26 : Byte) = (crc16 [0xAA, 0x77, 0x08, 1, 2]).extractLsb' 0 8 ∧
    (0x3F : Byte) = (crc16 [0xAA, 0x77, 0x08, 1, 2]).extractLsb' 8 8 := by decide +kernel
-- V30 (low byte), V31 (high byte) for 0x03, the same for 0x05 and 0x08
theorem witness_WrongCheckBytesDiscard :
    ((0xA9 : Byte) ≠ (crc16 ([0xAA, 0x77, 0x03, 0x0D, 4] ++ [1, 2, 3, 4])).extractLsb' 0 8 ∨
      (0x47 : Byte) ≠ (crc16 ([0xAA, 0x77, 0x03, 0x0D, 4] ++ [1, 2, 3, 4])).extractLsb' 8 8) ∧
    ((0xEC : Byte) ≠ (crc16 ([0xAA, 0x77, 0x05, 0x44, 1] ++ [7])).extractLsb' 0 8 ∨
      (0x90 : Byte) ≠ (crc16 ([0xAA, 0x77, 0x05, 0x44, 1] ++ [7])).extractLsb' 8 8) ∧
    ((0x27 : Byte) ≠ (crc16 [0xAA, 0x77, 0x08, 1, 2]).extractLsb' 0 8 ∨
      (0x3F : Byte) ≠ (crc16 [0xAA, 0x77, 0x08, 1, 2]).extractLsb' 8 8) := by decide +kernel
theorem witness_UnknownInstructionDiscards :
    (0x04 : Byte) ≠ 0x03 ∧ (0x04 : Byte) ≠ 0x05 ∧ (0x04 : Byte) ≠ 0x08 ∧
    (0xFF : Byte) ≠ 0x03 ∧ (0xFF : Byte) ≠ 0x05 ∧ (0xFF : Byte) ≠ 0x08 := by decide
-- V17 (no data)
theorem witness_SingleBitDamageIsDiscarded_addr :
    (7 < 8) ∧ ([] : List Byte).length ≤ 255 ∧ frameEvent (.rdRsp 0x10 [] 0xDA 0x6C) ≠ none ∧
    frameEvent (.fb 0x10 [] (lo8 (crc16 [0xAA, 0x77, 0x05, 0x10, 0x00])) (hi8 (crc16 [0xAA, 0x77, 0x05, 0x10, 0x00])))
      ≠ none ∧ frameEvent (.rdRsp 0x0D [1, 2, 3, 4] 0xA8 0x47) ≠ none := by decide +kernel
theorem witness_SingleBitDamageIsDiscarded_data :
    (0 < 8) ∧ [(1 : Byte), 2].length + [(4 : Byte)].length + 1 ≤ 255 ∧
    frameEvent (.rdRsp 0x0D ([1, 2] ++ 3 :: [4]) 0xA8 0x47) ≠ none ∧
    frameEvent (.fb 0x44 ([] ++ 7 :: []) 0xEC 0x91) ≠ none := by decide +kernel
theorem witness_SingleBitDamageIsDiscarded_alarm : (7 < 8) ∧ frameEvent (.alarm 1 2 0x26 0x3F) ≠ none := by
  decide +kernel

theorem witness_StepRunsTheDecodedInstruction_build :
    (withTodo [.buildRead 2 6]).todo = [.buildRead 2 6] ∧
    (withTodo [.buildWrite 30 [2]]).todo = [.buildWrite 30 [2]] := by decide
theorem witness_StepRunsTheDecodedInstruction_code :
    (instrState 0x04 []).inv = true ∧ (instrState 0x04 []).todo = [.feed 0x04] ∧ (instrState 0x04 []).dec.synced = true ∧
    (instrState 0x04 []).dec.instruction = none ∧ (Instr.unknownRx 0x04).wf = true ∧
    decode .toHost [0xAA, 0x77, 0x04] = .ok (.unknownRx 0x04, []) :=
  ⟨by decide +kernel, rfl, rfl, rfl, by decide +kernel, rfl⟩
theorem witness_StepRunsTheDecodedInstruction_frame :
    (bodyState 0x7E []).inv = true ∧ (bodyState 0x7E []).todo = [.feed 0x7E] ∧
    (bodyState 0x7E []).dec.instruction = some 0x03 ∧ (Instr.rdRsp 0xFE [0x11, 0x22, 0x33, 0x44] 0xAC 0x7E).wf = true ∧
    decode .toHost ([0xAA, 0x77, 0x03] ++ (bodyState 0x7E []).dec.payloadBuf ++ [0x7E]) =
      .ok (.rdRsp 0xFE [0x11, 0x22, 0x33, 0x44] 0xAC 0x7E, []) :=
  ⟨by decide +kernel, rfl, rfl, by decide +kernel, rfl⟩

/-- A well-formed instruction of each row, at the longest data where there are data. -/
def eachRow : List Instr :=
  [.rdReq 0xFF 0xFF, .rdRsp 0xFF (List.replicate 255 0) 0 0, .wr 0 (List.replicate 255 0), .fb 0 [] 0 0,
   .alarm 7 0xFF 0 0, .unknownRx 0x04]

theorem witness_PlacedInstructionRunsNext : ∀ i ∈ eachRow, i.wf = true := by decide +kernel
theorem witness_DecodeInvertsEncode : ∀ i ∈ eachRow, i.wf = true := by decide +kernel

theorem witness_HuntingSyncsOnTheMarkerOnly :
    ((huntState 0xAA [.feed 0x77]).todo = [.feed 0x77] ∧ (huntState 0xAA [.feed 0x77]).dec.synced = false ∧
      (huntState 0xAA [.feed 0x77]).dec.prev = 0xAA) ∧
    ((huntState 0x00 [.feed 0x77]).todo = [.feed 0x77] ∧ (huntState 0x00 [.feed 0x77]).dec.synced = false ∧
      (huntState 0x00 [.feed 0x77]).dec.prev ≠ 0xAA) := by decide +kernel
theorem witness_InstructionByteIsDispatched :
    ∀ b ∈ [(0x03 : Byte), 0x05, 0x08, 0x04], (instrState b []).todo = [.feed b] ∧
      (instrState b []).dec.synced = true ∧ (instrState b []).dec.instruction = none := by decide +kernel
-- len = 0xFF arrives: e = 259
theorem witness_PayloadByteIsBuffered_len :
    let s := start { synced := true, instruction := some 0x03, payloadBuf := [0x00], expectedLen := none, prev := 0x00 }
      [.feed 0xFF]
    s.inv = true ∧ s.todo = [.feed 0xFF] ∧ s.dec.instruction = some 0x03 ∧ s.dec.payloadBuf.length = 1 ∧
      some ((0xFF : Byte).toNat + 4) ≠ some (s.dec.payloadBuf.length + 1) := by decide +kernel
-- the second byte of an alarm frame changes no length
theorem witness_PayloadByteIsBuffered_alarm :
    let s := start { synced := true, instruction := some 0x08, payloadBuf := [0x01], expectedLen := some 4,
                     prev := 0x01 } [.feed 0x00]
    s.inv = true ∧ s.todo = [.feed 0x00] ∧ s.dec.instruction = some 0x08 ∧
      s.dec.expectedLen ≠ some (s.dec.payloadBuf.length + 1) := by decide +kernel
theorem witness_RegReadReturnsTheEntry :
    (withTodo [.regRead 255]).todo = [.regRead 255] ∧
    (withTodo [.reset, .regRead 0]).todo = .reset :: .regRead 0 :: [] := by decide
theorem witness_ResetRestoresTheBlock : (bodyState 0x7E []).todo ≠ [] ∧ (withTodo [.reset]).todo = .reset :: [] := by
  decide
theorem witness_CrcTransactionReturnsTheCrc : (withTodo [.crc16 []]).todo = .crc16 [] :: [] := by decide
theorem witness_IdleStepHoldsTheState : State.reset.todo = [] := by decide

theorem witness_FeedIsTotal :
    (bodyState 0x7E []).inv = true ∧ (bodyState 0x7E []).todo = .feed 0x7E :: [] := by decide +kernel
theorem witness_OnlyLongWritesStop :
    (withTodo [.buildWrite 0 (List.replicate 256 0)]).inv = true ∧
    step (withTodo [.buildWrite 0 (List.replicate 256 0)]) = .refused .writeTooLong :=
  ⟨by decide +kernel, refused_of_decide (by decide +kernel)⟩
theorem witness_PrevIsTheLastFedByte :
    (instrState 0xAA []).todo = .feed 0xAA :: [] ∧
    step (instrState 0xAA []) = .next (after (step (instrState 0xAA []))) :=
  ⟨rfl, next_of_decide (by decide +kernel)⟩
theorem witness_OnlyFeedAndResetChangeTheDecoder :
    (bodyState 0x7E []).todo = .feed 0x7E :: [] ∧ step (bodyState 0x7E []) = .next (after (step (bodyState 0x7E []))) ∧
    (after (step (bodyState 0x7E []))).dec ≠ (bodyState 0x7E []).dec :=
  ⟨rfl, next_of_decide (by decide +kernel), by decide +kernel⟩
theorem witness_RegisterMapChangesOnlyByValidFrames_frame :
    (bodyState 0x7E []).inv = true ∧ step (bodyState 0x7E []) = .next (after (step (bodyState 0x7E []))) ∧
    (after (step (bodyState 0x7E []))).regMap ≠ (bodyState 0x7E []).regMap :=
  ⟨by decide +kernel, next_of_decide (by decide +kernel), by decide +kernel⟩

/-- A RESET about to change the Register Map. -/
def resetState : State := { bodyState 0x7E [] with regmapInit := [(1, 0xEE)], todo := [.reset] }

theorem witness_RegisterMapChangesOnlyByValidFrames_reset :
    resetState.inv = true ∧ step resetState = .next (after (step resetState)) ∧
    (after (step resetState)).regMap ≠ resetState.regMap :=
  ⟨by decide +kernel, next_of_decide (by decide +kernel), by decide +kernel⟩
theorem witness_SyncedChanges_true :
    (huntState 0xAA [.feed 0x77]).inv = true ∧
    step (huntState 0xAA [.feed 0x77]) = .next (after (step (huntState 0xAA [.feed 0x77]))) ∧
    (huntState 0xAA [.feed 0x77]).dec.synced = false ∧
    (after (step (huntState 0xAA [.feed 0x77]))).dec.synced = true :=
  ⟨by decide +kernel, next_of_decide (by decide +kernel), rfl, by decide +kernel⟩
theorem witness_SyncedChanges_false :
    resetState.inv = true ∧ step resetState = .next (after (step resetState)) ∧ resetState.dec.synced = true ∧
    (after (step resetState)).dec.synced = false :=
  ⟨by decide +kernel, next_of_decide (by decide +kernel), rfl, by decide +kernel⟩
theorem witness_FeedIgnoresTheRegisterMap :
    (fbState 0x91 []).todo = .feed 0x91 :: [] ∧ step (fbState 0x91 []) = .next (after (step (fbState 0x91 []))) :=
  ⟨rfl, next_of_decide (by decide +kernel)⟩
theorem witness_TransactionsAreSequentialAndMemoryless :
    (fbState 0x91 [.reset]).todo = .feed 0x91 :: [.reset] ∧
    step (fbState 0x91 [.reset]) = .next (after (step (fbState 0x91 [.reset]))) :=
  ⟨rfl, next_of_decide (by decide +kernel)⟩
-- address 0xFE + 1 = 255, the last in the map
theorem witness_CommittedDataIsReadBack_response :
    let s := bodyState 0x7E [.regRead 0xFF]
    s.inv = true ∧ 1 < [(0x11 : Byte), 0x22, 0x33, 0x44].length ∧ (0xFE : Byte).toNat + 1 ≤ 255 ∧
    s.todo = .feed 0x7E :: .regRead (BitVec.ofNat 8 ((0xFE : Byte).toNat + 1)) :: [] ∧
    step s = .next (after (step s)) ∧
    (after (step s)).results = s.results ++ [.fed (some (.readResponse 0xFE [0x11, 0x22, 0x33, 0x44]))] :=
  ⟨by decide +kernel, by decide, by decide, by decide +kernel, next_of_decide (by decide +kernel), by decide +kernel⟩
theorem witness_CommittedDataIsReadBack_feedback :
    let s := fbState 0x91 [.regRead 0x44]
    s.inv = true ∧ 0 < [(0x07 : Byte)].length ∧ (0x44 : Byte).toNat + 0 ≤ 255 ∧
    s.todo = .feed 0x91 :: .regRead (BitVec.ofNat 8 ((0x44 : Byte).toNat + 0)) :: [] ∧
    step s = .next (after (step s)) ∧
    (after (step s)).results = s.results ++ [.fed (some (.feedback 0x44 [0x07]))] :=
  ⟨by decide +kernel, by decide, by decide, by decide +kernel, next_of_decide (by decide +kernel), by decide +kernel⟩

/-- One state in each phase, `0x77` to be fed. -/
def eachPhase : List (Phase × State) :=
  [(.hunt, huntState 0xAA [.feed 0x77]), (.instr, instrState 0x77 []),
   (.head, start { synced := true, instruction := some 0x05, payloadBuf := [], expectedLen := none, prev := 0x05 }
     [.feed 0x77]),
   (.head, start { synced := true, instruction := some 0x05, payloadBuf := [0x00], expectedLen := none, prev := 0x00 }
     [.feed 0x77]),
   (.body, bodyState 0x77 []), (.alarm, alarmState 0x77 [])]

theorem witness_PhaseMovesAsTabulated :
    ∀ p ∈ eachPhase, p.2.inv = true ∧ p.2.todo = .feed 0x77 :: [] ∧ phase p.2.dec = p.1 ∧
      next? (step p.2) = some (after (step p.2)) := by decide +kernel
theorem witness_ResetStateIsLegal :
    Memory.wf [] = true ∧ Memory.wf [(0, 0xEE), (255, 0x01)] = true := by decide +kernel
theorem witness_EveryStepKeepsTheInvariant :
    (bodyState 0x7E []).inv = true ∧ step (bodyState 0x7E []) = .next (after (step (bodyState 0x7E []))) :=
  ⟨by decide +kernel, next_of_decide (by decide +kernel)⟩

/-- A received instruction of each row the decoder accepts, with its event, and one it rejects. -/
def received : List (Instr × Option Event) :=
  [(.rdRsp 0x0D [1, 2, 3, 4] 0xA8 0x47, some (.readResponse 0x0D [1, 2, 3, 4])),
   (.fb 0x44 [7] 0xEC 0x91, some (.feedback 0x44 [7])), (.alarm 1 2 0x26 0x3F, some (.alarm 1 2)),
   (.unknownRx 0x04, none)]

theorem witness_FedFrameRunsItsInstruction :
    ∀ r ∈ received, r.1.wf = true ∧ r.1.direction = .toHost ∧ (huntState 0xAA (feeds (encode r.1) ++ [])).inv = true ∧
      (huntState 0xAA (feeds (encode r.1) ++ [])).dec.synced = false := by decide +kernel
-- right check bytes (V13, V14) and wrong ones (V30)
theorem witness_DataFrameNetEffect :
    (huntState 0xAA (feeds ([0xAA, 0x77, 0x03, 0x0D, 4, 1, 2, 3, 4] ++ [0xA8, 0x47]) ++ [])).inv = true ∧
    [(1 : Byte), 2, 3, 4].length ≤ 255 ∧
    ((0xA8 : Byte) = (crc16 [0xAA, 0x77, 0x03, 0x0D, 4, 1, 2, 3, 4]).extractLsb' 0 8 ∧
      (0x47 : Byte) = (crc16 [0xAA, 0x77, 0x03, 0x0D, 4, 1, 2, 3, 4]).extractLsb' 8 8) ∧
    ((0xEC : Byte) = (crc16 [0xAA, 0x77, 0x05, 0x44, 1, 7]).extractLsb' 0 8 ∧
      (0x91 : Byte) = (crc16 [0xAA, 0x77, 0x05, 0x44, 1, 7]).extractLsb' 8 8) ∧
    ¬((0xA9 : Byte) = (crc16 [0xAA, 0x77, 0x03, 0x0D, 4, 1, 2, 3, 4]).extractLsb' 0 8) := by decide +kernel
theorem witness_AlarmFrameNetEffect :
    (huntState 0xAA (feeds [0xAA, 0x77, 0x08, 1, 2, 0x26, 0x3F] ++ [])).inv = true ∧
    (huntState 0xAA (feeds [0xAA, 0x77, 0x08, 1, 2, 0x26, 0x3F] ++ [])).dec.synced = false := by decide +kernel
-- V51: garbage 00 FF 77 AA
theorem witness_GarbageThenFrameGivesOneEvent :
    (huntState 0x00 (feeds ([0x00, 0xFF, 0x77, 0xAA] ++ encode (.fb 0x44 [7] 0xEC 0x91)) ++ [])).inv = true ∧
    hasMarker (0x00 :: [0x00, 0xFF, 0x77, 0xAA]) = false ∧ (Instr.fb 0x44 [7] 0xEC 0x91).wf = true ∧
    frameEvent (.fb 0x44 [7] 0xEC 0x91) = some (.feedback 0x44 [7]) := by decide +kernel
-- V26, V27
theorem witness_BackToBackFramesAllDecode :
    ∀ f ∈ [((.alarm 1 2 0x26 0x3F : Instr), Event.alarm 1 2),
           (.rdRsp 0x0D [1, 2, 3, 4] 0xA8 0x47, .readResponse 0x0D [1, 2, 3, 4])],
      f.1.wf = true ∧ frameEvent f.1 = some f.2 := by decide +kernel
theorem witness_EveryFrameEndResetsTheDecoder_exec : ∀ r ∈ received, r.1.direction = .toHost := by decide
-- an unknown instruction; the last byte of V21's frame, right and wrong
theorem witness_EveryFrameEndResetsTheDecoder_feed :
    ((instrState 0x04 []).inv = true ∧ (instrState 0x04 []).dec.synced = true ∧
      (instrState 0x04 []).dec.instruction = none) ∧
    ∀ b ∈ [(0x7E : Byte), 0x7F], (bodyState b []).inv = true ∧ (bodyState b []).todo = .feed b :: [] ∧
      (bodyState b []).dec.synced = true ∧
      (bodyState b []).dec.expectedLen = some ((bodyState b []).dec.payloadBuf.length + 1) := by decide +kernel
-- a frame that commits, a read of what it wrote, a command; the RESET is not reached
theorem witness_RegisterMapPersistsUntilReset :
    Txn.reset ∉ (bodyState 0x7E [.regRead 0xFE, .buildRead 2 6, .reset]).todo.take 3 ∧
    runs 3 (bodyState 0x7E [.regRead 0xFE, .buildRead 2 6, .reset]) =
      .next (after (runs 3 (bodyState 0x7E [.regRead 0xFE, .buildRead 2 6, .reset]))) ∧
    (after (runs 3 (bodyState 0x7E [.regRead 0xFE, .buildRead 2 6, .reset]))).regMap ≠ State.reset.regMap :=
  ⟨by decide +kernel, next_of_decide (by decide +kernel), by decide +kernel⟩
-- V16
theorem witness_WriteFrameFedBackIsIgnored :
    (huntState 0x00 (feeds (encode (.wr 30 [2])) ++ [])).inv = true ∧ [(2 : Byte)].length ≤ 255 ∧
    hasMarker ((encode (.wr 30 [2])).drop 3) = false := by decide +kernel
-- V18 (len = 0), V19 (len = 6)
theorem witness_RequestFedBackIsAResponseHeader :
    (huntState 0x00 (feeds (encode (.rdReq 0 0)) ++ [])).inv = true ∧
    (huntState 0x00 (feeds (encode (.rdReq 2 6)) ++ [])).inv = true ∧ (6 : Byte) ≠ 0 := by decide +kernel
-- P6
theorem witness_FrameAfterResetDecodes :
    ({ bodyState 0x7E [] with
       todo := Txn.reset :: feeds ([0x03, 0x04, 0xA8, 0x47] ++ encode (.fb 0x1E [2] 0x0C 0x81)) ++ [] } : State).inv =
      true ∧ hasMarker (0x00 :: [0x03, 0x04, 0xA8, 0x47]) = false ∧ hasMarker (0x00 :: []) = false ∧
    (Instr.fb 0x1E [2] 0x0C 0x81).wf = true ∧
    frameEvent (.fb 0x1E [2] 0x0C 0x81) = some (.feedback 0x1E [2]) := by decide +kernel
-- the longest attempt: an instruction byte 0x03, len 0xFF
theorem witness_EveryFrameAttemptEnds :
    (start { synced := true, instruction := none, payloadBuf := [], expectedLen := none, prev := 0x77 }
      (feeds (0x03 :: 0x00 :: 0xFF :: List.replicate 257 0) ++ [])).inv = true ∧
    260 ≤ ((0x03 : Byte) :: 0x00 :: 0xFF :: List.replicate 257 0).length := by decide +kernel
theorem witness_EncodeInvertsReceiveDecode :
    decode .toHost [0xAA, 0x77, 0x08, 0x01, 0x02, 0x26, 0x3F] = .ok (.alarm 1 2 0x26 0x3F, []) := by rfl
theorem witness_OtherCodesDecodeAsUnknown :
    (0x04 : Byte) ≠ 0x03 ∧ (0x04 : Byte) ≠ 0x05 ∧ (0x04 : Byte) ≠ 0x08 := by decide

end Sys2Proof.Tests
end

/-!
PROOF. What each transaction does as a step, and what a step can do to the decoder state, said once.
-/

namespace Sys2Proof.Machine

@[simp] theorem resetWith_regMap (init : Memory) : (State.resetWith init).regMap = init := rfl
@[simp] theorem resetWith_dec (init : Memory) : (State.resetWith init).dec = Decoder.hunting Config.prevInit := rfl

/-! ## One equation per transaction -/

/-- REG_READ as a step (spec/10_state.md R13). -/
theorem step_regRead {s : State} {a : Byte} {rest : List Txn} (h : s.todo = .regRead a :: rest) :
    step s = .next (State.emit { s with todo := rest } (.value (s.regMap.read a.toNat))) := step_cons h

/-- CRC16 as a step (spec/40_crc16.md R73). -/
theorem step_crc16 {s : State} {m : List Byte} {rest : List Txn} (h : s.todo = .crc16 m :: rest) :
    step s = .next (State.emit { s with todo := rest } (.crc (crc16 m))) := step_cons h

/-- RESET as a step (spec/70_reset_and_hazards.md R132). -/
theorem step_reset {s : State} {rest : List Txn} (h : s.todo = .reset :: rest) :
    step s = .next (State.emit
      { s with todo := rest, regMap := s.regmapInit, dec := Decoder.hunting Config.prevInit } .resetDone) :=
  step_cons h

/-- BUILD_READ as a step (spec/42_frame_builder.md R108). -/
theorem step_buildRead {s : State} {addr len : Byte} {rest : List Txn} (h : s.todo = .buildRead addr len :: rest) :
    step s = .next (State.emit { s with todo := rest } (.frame (assemble (requestHeader addr len)))) := step_cons h

/-- BUILD_WRITE as a step (spec/42_frame_builder.md R109, R110). -/
theorem step_buildWrite {s : State} {addr : Byte} {data : List Byte} {rest : List Txn}
    (h : s.todo = .buildWrite addr data :: rest) :
    step s = if data.length ≤ Config.maxData then
        .next (State.emit { s with todo := rest } (.frame (assemble (dataHeader Config.iWrite addr data))))
      else .refused .writeTooLong := step_cons h

/-- A FEED while hunting: synchronised exactly on the second marker byte after the first (spec/41_frame_decoder.md R83,
R84). -/
theorem step_feed_hunting {s : State} {b : Byte} {rest : List Txn} (hs : s.dec.synced = false)
    (h : s.todo = .feed b :: rest) :
    step s = .next (s.afterQuiet
      { s.dec with prev := b, synced := decide (s.dec.prev = Config.marker0 ∧ b = Config.marker1) } rest 1) := by
  refine step_quiet h ?_
  rw [feed_hunting b (by exact hs), feedHunt]
  by_cases hm : s.dec.prev = Config.marker0 ∧ b = Config.marker1
  · rw [if_pos hm, decide_eq_true hm]
  · rw [if_neg hm, decide_eq_false hm, ← hs]

/-! ## The decoder state over one step -/

/-- A step keeps the decoder state, or is a RESET, or is a FEED (spec/10_state.md section 1). -/
theorem step_dec_cases {s t : State} (h : step s = .next t) :
    t.dec = s.dec ∨
      (∃ rest, s.todo = .reset :: rest ∧ t.dec = Decoder.hunting Config.prevInit) ∨
      ∃ b rest, s.todo = .feed b :: rest := by
  cases ht : s.todo with
  | nil =>
    rw [step_idle ht] at h
    cases h
    exact .inl rfl
  | cons tx rest =>
    cases tx with
    | feed b => exact .inr (.inr ⟨b, rest, rfl⟩)
    | regRead a =>
      rw [step_regRead ht] at h
      cases h
      exact .inl rfl
    | crc16 m =>
      rw [step_crc16 ht] at h
      cases h
      exact .inl rfl
    | buildRead addr len =>
      rw [step_buildRead ht] at h
      cases h
      exact .inl rfl
    | buildWrite addr data =>
      rw [step_buildWrite ht] at h
      split at h
      · cases h
        exact .inl rfl
      · cases h
    | reset =>
      rw [step_reset ht] at h
      cases h
      exact .inr (.inl ⟨rest, rfl, rfl⟩)

/-- An instruction of a received row leaves the framing reset (spec/41_frame_decoder.md R101). -/
theorem exec_toHost_dec {i : Instr} (hd : i.direction = .toHost) {s t : State} (h : exec i s = .next t) :
    t.dec = Decoder.hunting s.dec.prev := by
  obtain ⟨e, f, hu⟩ := exec_toHost_uniform hd
  rw [hu] at h
  cases h
  rfl

/-- Every FEED leaves a legal decoder state (spec/10_state.md R25). -/
theorem step_feed_dec_wf {s t : State} {b : Byte} {rest : List Txn} (hw : s.dec.wf = true)
    (ht : s.todo = .feed b :: rest) (h : step s = .next t) : t.dec.wf = true := by
  rw [step_feed ht] at h
  rcases feed_cases (s := { s with todo := rest }) b hw with ⟨d, _, hd, hf⟩ | ⟨d, i, _, hdir, hf, _⟩
  · rw [hf] at h
    cases h
    exact hd
  · rw [hf, finish_run] at h
    rw [exec_toHost_dec hdir h]
    exact wf_hunting _

/-- Every step leaves a legal decoder state (spec/10_state.md R25). -/
theorem step_dec_wf {s t : State} (hw : s.dec.wf = true) (h : step s = .next t) : t.dec.wf = true := by
  rcases step_dec_cases h with hk | ⟨_, _, hr⟩ | ⟨b, rest, ht⟩
  · rwa [hk]
  · rw [hr]
    exact wf_hunting _
  · exact step_feed_dec_wf hw ht h

/-- A step that leaves hunting is the FEED of the second marker byte after the first (spec/10_state.md R15,
spec/41_frame_decoder.md R84). -/
theorem step_synced_of_hunting {s t : State} (hs : s.dec.synced = false) (h : step s = .next t)
    (ht : t.dec.synced = true) :
    s.dec.prev = Config.marker0 ∧ ∃ rest, s.todo = .feed Config.marker1 :: rest := by
  rcases step_dec_cases h with hk | ⟨_, _, hr⟩ | ⟨b, rest, htodo⟩
  · rw [hk, hs] at ht
    cases ht
  · rw [hr, hunting_synced] at ht
    cases ht
  · rw [step_feed_hunting hs htodo] at h
    cases h
    obtain ⟨hp, rfl⟩ := of_decide_eq_true ht
    exact ⟨hp, rest, htodo⟩

end Sys2Proof.Machine

/-!
PROOF. The statements about the state: its value after reset, reading an entry, and when `synced` changes
(spec/10_state.md).
-/

namespace Sys2Proof

open Machine

/-- Settles O25. -/
theorem powerOnState : Obligations.PowerOnState := by
  intro init
  rw [resetWith_regMap, resetWith_dec]
  exact ⟨fun _ => rfl, hunting_synced _, hunting_instruction _, hunting_payloadBuf _, hunting_expectedLen _,
    hunting_prev _⟩

/-- Settles O23: the RESET puts `REGMAP_INIT` in the map, and the REG_READ after it reads that map. -/
theorem regReadReturnsTheEntry : Obligations.RegReadReturnsTheEntry := by
  intro s a rest
  refine ⟨step_regRead, fun h => ?_⟩
  rw [runs_succ_of_next (step_reset h), runs_one, step_regRead rfl]
  exact ⟨_, rfl, by simp⟩

/-- Settles O33: only the marker synchronises a hunting decoder, and a legal decoder that hunts is in the state of the
framing reset. -/
theorem syncedChangesOnlyByMarkerAndFramingReset : Obligations.SyncedChangesOnlyByMarkerAndFramingReset := by
  intro s t hinv hstep
  obtain ⟨_, _, hw⟩ := (inv_iff s).mp hinv
  refine ⟨fun hs ht => step_synced_of_hunting hs hstep ht, fun _ ht => ?_⟩
  rw [eq_hunting_of_wf (step_dec_wf hw hstep) ht]
  exact ⟨hunting_instruction _, hunting_payloadBuf _, hunting_expectedLen _⟩

end Sys2Proof

/-!
PROOF. The rows `RD_RSP` and `FB` on `exec`, what one FEED does to the Register Map, and what a range update leaves to
be read (spec/20_memory.md R37, R41).
-/

namespace Sys2Proof.Machine

/-! ## The range update as the statements write it -/

/-- The map after a range update, entry by entry, in the spec's numbers (spec/20_memory.md R37). -/
theorem Memory.read_memWrite_eq {a b : Nat} {vs : List Byte} {m : Memory} (h : m.wf = true) :
    (memWrite m a vs).read b = if a ≤ b ∧ b < a + vs.length ∧ b ≤ 255 then vs.getD (b - a) 0 else m.read b :=
  (Memory.read_memWrite h).trans (if_congr (by rw [Nat.lt_succ_iff]) rfl rfl)

/-- An entry that the range update reaches holds its data byte. -/
theorem Memory.read_memWrite_add {a i : Nat} {vs : List Byte} {m : Memory} (h : m.wf = true) (hi : i < vs.length)
    (ha : a + i ≤ 255) : (memWrite m a vs).read (a + i) = vs.getD i 0 := by
  rw [Memory.read_memWrite_eq h, if_pos (by omega), Nat.add_sub_cancel_left]

/-! ## Frames with right check bytes -/

theorem lo8_eq_extractLsb' (c : Word16) : lo8 c = c.extractLsb' 0 8 := BitVec.setWidth_eq_extractLsb' (by decide)

theorem hi8_eq_extractLsb' (c : Word16) : hi8 c = c.extractLsb' 8 8 := by
  apply BitVec.eq_of_getLsbD_eq
  intro i hi
  simp [hi8, hi]

/-- The header of a data frame, its bytes written out (spec/30_encoding.md R46, R50). -/
theorem dataHeader_eq (code addr : Byte) (data : List Byte) :
    dataHeader code addr data = [0xAA, 0x77, code, addr, BitVec.ofNat 8 data.length] ++ data := rfl

/-- The check bytes as the statements write them are right (spec/40_crc16.md R75). -/
theorem verdict_of_extractLsb' {h : List Byte} {lo hi : Byte} (hlo : lo = (crc16 h).extractLsb' 0 8)
    (hhi : hi = (crc16 h).extractLsb' 8 8) : verdict h lo hi = true :=
  verdict_iff.mpr ⟨hlo.trans (lo8_eq_extractLsb' _).symm, hhi.trans (hi8_eq_extractLsb' _).symm⟩

/-- The two rows of format `RD` a frame on the receive side can be: code, instruction and event
(spec/41_frame_decoder.md R86, R87, R97). -/
def IsDataRow (code : Byte) (mk : Byte → List Byte → Byte → Byte → Instr) (ev : Byte → List Byte → Event) : Prop :=
  (code = 0x03 ∧ mk = Instr.rdRsp ∧ ev = Event.readResponse) ∨ (code = 0x05 ∧ mk = Instr.fb ∧ ev = Event.feedback)

/-- A data frame with right check bytes: the commit, the framing reset, the event (spec/41_frame_decoder.md R97, R98,
R100, R101). -/
theorem exec_dataRow_valid {code : Byte} {mk : Byte → List Byte → Byte → Byte → Instr}
    {ev : Byte → List Byte → Event} (hrow : IsDataRow code mk ev) {addr : Byte} {data : List Byte} {lo hi : Byte}
    (hv : verdict (dataHeader code addr data) lo hi = true) (s : State) :
    exec (mk addr data lo hi) s = .next ((s.commit addr data).framingReset.emit (.fed (some (ev addr data)))) := by
  rcases hrow with ⟨rfl, rfl, rfl⟩ | ⟨rfl, rfl, rfl⟩
  · exact completeFrame_valid (fun t => t.commit addr data) (.readResponse addr data) s hv
  · exact completeFrame_valid (fun t => t.commit addr data) (.feedback addr data) s hv

/-! ## A FEED writes what its event says -/

/-- The Register Map once a FEED that returned `e` has ended: without an event it is as before
(spec/41_frame_decoder.md R98, R99). -/
def eventWrites? (m : Memory) : Option Event → Memory
  | none => m
  | some e => eventWrites m e

@[simp] theorem eventWrites?_none (m : Memory) : eventWrites? m none = m := rfl
@[simp] theorem eventWrites?_some (m : Memory) (e : Event) : eventWrites? m (some e) = eventWrites m e := rfl

/-- An instruction of a received row writes what the event it returns says, and nothing else (spec/41_frame_decoder.md
R96 to R99). -/
theorem exec_toHost_event {i : Instr} (hd : i.direction = .toHost) (s : State) :
    ∃ e, exec i s = .next ({ s with regMap := eventWrites? s.regMap e }.framingReset.emit (.fed e)) := by
  rcases exec_toHost_cases hd s with h | ⟨l, t, h⟩ | ⟨addr, data, e, rfl | rfl, h⟩
  · exact ⟨none, h⟩
  · exact ⟨some (.alarm l t), h⟩
  · exact ⟨some (.readResponse addr data), h⟩
  · exact ⟨some (.feedback addr data), h⟩

/-- A FEED from a legal decoder state takes itself off `todo`, returns an event or `None`, and writes what the event
says (spec/41_frame_decoder.md R81). -/
theorem step_feed_event {s t : State} {b : Byte} {rest : List Txn} (hw : s.dec.wf = true)
    (ht : s.todo = .feed b :: rest) (h : step s = .next t) :
    ∃ e, t.results = s.results ++ [.fed e] ∧ t.todo = rest ∧ t.regMap = eventWrites? s.regMap e := by
  rw [step_feed ht] at h
  rcases feed_cases (s := { s with todo := rest }) b hw with ⟨d, _, _, hf⟩ | ⟨d, i, _, hdir, hf, _⟩
  · rw [hf] at h
    cases h
    exact ⟨none, rfl, rfl, rfl⟩
  · obtain ⟨e, he⟩ := exec_toHost_event hdir { s with todo := rest, dec := d }
    rw [hf, finish_run, he] at h
    cases h
    exact ⟨e, rfl, rfl, rfl⟩

/-- A FEED that returned the event `e` has written what `e` says. -/
theorem step_feed_regMap_of_event {s t : State} {b : Byte} {rest : List Txn} {e : Event} (hw : s.dec.wf = true)
    (ht : s.todo = .feed b :: rest) (h : step s = .next t) (hr : t.results = s.results ++ [.fed (some e)]) :
    t.todo = rest ∧ t.regMap = eventWrites s.regMap e := by
  obtain ⟨e', hr', htodo, hmap⟩ := step_feed_event hw ht h
  have he : e' = some e := by simpa using List.append_cancel_left (hr'.symm.trans hr)
  rw [he, eventWrites?_some] at hmap
  exact ⟨htodo, hmap⟩

end Sys2Proof.Machine

/-!
PROOF. The statements about the Register Map's updates (spec/20_memory.md).
-/

namespace Sys2Proof

open Machine

/-- Settles O13: the map after the frame is the range update of the map before. -/
theorem validDataFrameCommits : Obligations.ValidDataFrameCommits := by
  intro code mk ev hrow addr data lo hi s hwf _ hlo hhi
  rw [← dataHeader_eq] at hlo hhi
  exact ⟨memWrite s.regMap addr.toNat data, exec_dataRow_valid hrow (verdict_of_extractLsb' hlo hhi) s,
    fun _ => Memory.read_memWrite_eq hwf⟩

/-- Settles O36: either event says that the FEED made the range update, and the REG_READ after it reads that map. -/
theorem committedDataIsReadBack : Obligations.CommittedDataIsReadBack := by
  intro s t b addr data i rest hinv hi haddr htodo hstep hres
  obtain ⟨hmap, _, hw⟩ := (inv_iff s).mp hinv
  obtain ⟨htodo', hmap'⟩ : t.todo = .regRead (BitVec.ofNat 8 (addr.toNat + i)) :: rest ∧
      t.regMap = memWrite s.regMap addr.toNat data :=
    hres.elim (step_feed_regMap_of_event hw htodo hstep) (step_feed_regMap_of_event hw htodo hstep)
  have ha : (BitVec.ofNat 8 (addr.toNat + i)).toNat = addr.toNat + i :=
    (BitVec.toNat_ofNat _ _).trans (Nat.mod_eq_of_lt (by omega))
  refine ⟨_, by rw [runs_succ_of_next hstep, runs_one, step_regRead htodo'], ?_⟩
  rw [emit_results, hmap', ha, Memory.read_memWrite_add hmap hi haddr]

end Sys2Proof

/-!
PROOF. The CRC unit's functions one by one: the reflections are involutions, the bit step is a shift and a conditional
XOR, and every step of the accumulator is a bijection (spec/40_crc16.md R67 to R73).
-/

namespace Sys2Proof.Machine

/-! ## The reflections -/

@[simp] theorem reflect8_reflect8 (b : Byte) : reflect8 (reflect8 b) = b := BitVec.reverse_reverse_eq
@[simp] theorem reflect16_reflect16 (w : Word16) : reflect16 (reflect16 w) = w := BitVec.reverse_reverse_eq

theorem reflect8_injective : Function.Injective reflect8 :=
  Function.LeftInverse.injective reflect8_reflect8
theorem reflect16_injective : Function.Injective reflect16 :=
  Function.LeftInverse.injective reflect16_reflect16

/-- Reflecting a word puts its reflected high byte into the low half (spec/40_crc16.md R68). -/
theorem extractLsb'_low_reflect16 (w : Word16) : (reflect16 w).extractLsb' 0 8 = reflect8 (w.extractLsb' 8 8) := by
  apply BitVec.eq_of_getLsbD_eq
  intro i hi
  rw [getLsbD_reflect8 _ i hi, BitVec.getLsbD_extractLsb', BitVec.getLsbD_extractLsb', Nat.zero_add,
    getLsbD_reflect16 w i (by omega), show 15 - i = 8 + (7 - i) by omega]
  simp [hi, show 7 - i < 8 by omega]

/-- Reflecting a word puts its reflected low byte into the high half (spec/40_crc16.md R68): the other exchange, read
on the reflected word. -/
theorem extractLsb'_high_reflect16 (w : Word16) : (reflect16 w).extractLsb' 8 8 = reflect8 (w.extractLsb' 0 8) := by
  have h := extractLsb'_low_reflect16 (reflect16 w)
  rw [reflect16_reflect16] at h
  rw [h, reflect8_reflect8]

/-! ## Bytes, and the two bytes of a word -/

/-- The high half of a word that a byte was shifted into is that byte. -/
theorem hi8_setWidth_shiftLeft (x : Byte) : hi8 (x.setWidth 16 <<< 8) = x := by
  apply BitVec.eq_of_getLsbD_eq
  intro i hi
  simp [hi8, hi, show i < 16 by omega, show 8 + i < 16 by omega]

/-- Flipping a bit of a byte gives another byte. -/
theorem xor_bit_ne (b : Byte) {k : Nat} (hk : k < 8) : b ^^^ (1#8 <<< k) ≠ b := by
  intro h
  have hbit := congrArg (fun x => x.getLsbD k) h
  simp [hk] at hbit

/-- A word is the XOR of its two bytes, each in its place. -/
theorem hi8_xor_lo8 (w : Word16) : ((hi8 w).setWidth 16 <<< 8) ^^^ (lo8 w).setWidth 16 = w := by
  apply BitVec.eq_of_getLsbD_eq
  intro i hi
  rw [BitVec.getLsbD_xor]
  rcases Nat.lt_or_ge i 8 with h | h
  · simp [lo8, hi, h]
  · simp [hi8, lo8, hi, show ¬ i < 8 by omega, show i - 8 < 8 by omega, show 8 + (i - 8) = i by omega]

/-! ## The bit step -/

theorem bitstep_of_bit15 {a : Word16} (h : a.getLsbD 15 = true) : bitstep a = (a <<< 1) ^^^ Config.crcPoly := if_pos h

theorem bitstep_of_not_bit15 {a : Word16} (h : a.getLsbD 15 = false) : bitstep a = a <<< 1 :=
  if_neg (by rw [h]; decide)

/-- Bit 15 of a word, as a bound on its value. -/
theorem getLsbD_15_eq_decide (a : Word16) : a.getLsbD 15 = decide (32768 ≤ a.toNat) := BitVec.getLsbD_last a

/-- The shift of a bit step on natural numbers: `(a << 1) AND 0xFFFF` (spec/40_crc16.md R69). -/
theorem toNat_shiftLeft_one (a : Word16) : (a <<< 1).toNat = (2 * a.toNat) % 65536 := by
  rw [BitVec.toNat_shiftLeft, Nat.shiftLeft_eq, Nat.mul_comm]

/-- `n` bit steps are the `n`-fold iterate of one, the loop of spec/40_crc16.md R73. -/
theorem bitsteps_eq_iterate (n : Nat) (a : Word16) : bitsteps n a = Nat.iterate bitstep n a := by
  induction n generalizing a with
  | zero => rfl
  | succ n ih => exact ih (bitstep a)

/-- Bit steps only shift as long as every bit shifted out is 0. -/
theorem bitsteps_eq_shiftLeft {n : Nat} {a : Word16} (h : ∀ i, i < n → a.getLsbD (15 - i) = false) :
    bitsteps n a = a <<< n := by
  induction n generalizing a with
  | zero => exact (BitVec.shiftLeft_zero a).symm
  | succ n ih =>
    have hshift : bitstep a = a <<< 1 := bitstep_of_not_bit15 (h 0 n.succ_pos)
    have hrest : ∀ i, i < n → (a <<< 1).getLsbD (15 - i) = false := by
      intro i hi
      rw [BitVec.getLsbD_shiftLeft, show 15 - i - 1 = 15 - (i + 1) by omega, h (i + 1) (by omega), Bool.and_false]
    calc bitsteps (n + 1) a = bitsteps n (a <<< 1) := congrArg (bitsteps n) hshift
      _ = a <<< 1 <<< n := ih hrest
      _ = a <<< (n + 1) := by rw [← BitVec.shiftLeft_add, Nat.add_comm]

/-- Eight bit steps move a byte from the low half to the high half. -/
theorem bitsteps_setWidth (x : Byte) : bitsteps 8 (x.setWidth 16) = x.setWidth 16 <<< 8 := by
  refine bitsteps_eq_shiftLeft fun i hi => ?_
  rw [BitVec.getLsbD_setWidth, BitVec.getLsbD_of_ge x (15 - i) (by omega), Bool.and_false]

/-- Bit steps are linear and only zero steps to zero, so they lose nothing. -/
theorem bitsteps_injective (n : Nat) : Function.Injective (bitsteps n) := by
  intro a b h
  have hdiff : bitsteps n (a ^^^ b) = 0 := by rw [bitsteps_xor, h, BitVec.xor_self]; rfl
  exact BitVec.xor_eq_zero_iff.mp (bitsteps_eq_zero hdiff)

theorem bitsteps_surjective (n : Nat) : Function.Surjective (bitsteps n) :=
  Finite.surjective_of_injective (bitsteps_injective n)

/-! ## The byte step -/

/-- The byte step as the loop of spec/40_crc16.md R73 writes it. -/
theorem bytestep_eq_iterate (a : Word16) (b : Byte) :
    bytestep a b = Nat.iterate bitstep 8 (a ^^^ ((reflect8 b).setWidth 16 <<< 8)) := bitsteps_eq_iterate 8 _

/-- The same byte takes different accumulators to different accumulators. -/
theorem bytestep_left_injective (b : Byte) : Function.Injective (fun a => bytestep a b) :=
  fun _ _ h => (BitVec.xor_left_inj _).mp (bitsteps_injective 8 h)

/-- Different bytes take the same accumulator to different accumulators. -/
theorem bytestep_right_injective (a : Word16) : Function.Injective (bytestep a) := by
  intro b c h
  have hhigh := congrArg hi8 ((BitVec.xor_right_inj _).mp (bitsteps_injective 8 h))
  rw [hi8_setWidth_shiftLeft, hi8_setWidth_shiftLeft] at hhigh
  exact reflect8_injective hhigh

/-- The bytes of a message taken in turn keep different accumulators different. -/
theorem foldl_bytestep_injective (m : List Byte) : Function.Injective (fun a => m.foldl bytestep a) := by
  induction m with
  | nil => exact Function.injective_id
  | cons b m ih => exact ih.comp (bytestep_left_injective b)

/-- Two byte steps are sixteen bit steps on the accumulator XORed with both bytes, reflected. -/
theorem bytestep_bytestep (a : Word16) (b c : Byte) :
    bytestep (bytestep a b) c =
      bitsteps 16 (a ^^^ (((reflect8 b).setWidth 16 <<< 8) ^^^ (reflect8 c).setWidth 16)) := by
  rw [bytestep, bytestep, ← bitsteps_setWidth (reflect8 c), ← bitsteps_xor, ← bitsteps_add, BitVec.xor_assoc]

/-! ## The CRC of a message -/

/-- Messages that differ in one byte only have different CRCs. -/
theorem crc16_ne_of_byte_ne (before after : List Byte) {b c : Byte} (h : b ≠ c) :
    crc16 (before ++ b :: after) ≠ crc16 (before ++ c :: after) := by
  intro heq
  rw [crc16_eq_reflect, crc16_eq_reflect, crcAcc_append, crcAcc_append] at heq
  exact h (bytestep_right_injective _ (foldl_bytestep_injective after (reflect16_injective heq)))

/-- Every word is the accumulator of a message of two bytes: two byte steps from the start value are sixteen bit steps
on a word that the bytes choose. -/
theorem exists_crcAcc_eq (w : Word16) : ∃ b c : Byte, crcAcc [b, c] = w := by
  obtain ⟨v, rfl⟩ := bitsteps_surjective 16 w
  refine ⟨reflect8 (hi8 (Config.crcInit ^^^ v)), reflect8 (lo8 (Config.crcInit ^^^ v)), ?_⟩
  calc crcAcc [reflect8 (hi8 (Config.crcInit ^^^ v)), reflect8 (lo8 (Config.crcInit ^^^ v))]
      = bitsteps 16 (Config.crcInit ^^^ (Config.crcInit ^^^ v)) := by
        rw [crcAcc, List.foldl_cons, List.foldl_cons, List.foldl_nil, bytestep_bytestep, reflect8_reflect8,
          reflect8_reflect8, hi8_xor_lo8]
    _ = bitsteps 16 v := by rw [← BitVec.xor_assoc, BitVec.xor_self, BitVec.zero_xor]

/-- CRC16 takes every value (spec/40_crc16.md R73). -/
theorem crc16_surjective : Function.Surjective crc16 := by
  intro c
  obtain ⟨a, b, hacc⟩ := exists_crcAcc_eq (reflect16 c)
  exact ⟨[a, b], by rw [crc16_eq_reflect, hacc, reflect16_reflect16]⟩

end Sys2Proof.Machine

/-!
PROOF. The statements about the CRC-16 unit (spec/40_crc16.md).
-/

namespace Sys2Proof

open Machine

/-- Settles O1. -/
theorem reflectionReversesBits : Obligations.ReflectionReversesBits :=
  ⟨getLsbD_reflect8, reflect8_reflect8, getLsbD_reflect16,
    fun w => ⟨extractLsb'_low_reflect16 w, extractLsb'_high_reflect16 w⟩⟩

/-- Settles O2: bit 15 is set exactly from 32768 on, and decides the branch. -/
theorem bitStepShiftsAndReduces : Obligations.BitStepShiftsAndReduces := by
  intro a
  by_cases h : 32768 ≤ a.toNat
  · rw [if_pos h, bitstep_of_bit15 (by rw [getLsbD_15_eq_decide, decide_eq_true h]), BitVec.toNat_xor,
      toNat_shiftLeft_one]
    rfl
  · rw [if_neg h, bitstep_of_not_bit15 (by rw [getLsbD_15_eq_decide, decide_eq_false h]), toNat_shiftLeft_one]

/-- Settles O3: the eight bit steps are the loop's iterate, and a message of two bytes reaches every word. -/
theorem crcFollowsItsLoop : Obligations.CrcFollowsItsLoop := by
  have hloop : bytestep = fun a b => Nat.iterate bitstep 8 (a ^^^ ((reflect8 b).setWidth 16 <<< 8)) :=
    funext₂ bytestep_eq_iterate
  refine ⟨fun m => ?_, by decide, by decide +kernel, by decide +kernel, crc16_surjective, by decide +kernel⟩
  rw [crc16_eq_reflect, crcAcc, hloop]
  rfl

/-- Settles O8: the flipped byte is another byte, and one changed byte changes the CRC. -/
theorem singleBitFlipChangesCrc : Obligations.SingleBitFlipChangesCrc :=
  fun before after b _ hk => crc16_ne_of_byte_ne before after (xor_bit_ne b hk)

end Sys2Proof

/-!
PROOF. What one FEED and one complete frame do, phase by phase, as a step (spec/41_frame_decoder.md R82 to R101).
-/

namespace Sys2Proof.Machine

/-! ## One FEED -/

/-- Received bytes run an instruction of a received row, or are no frame. -/
theorem runReceived_cases (bytes : List Byte) (s : State) :
    runReceived bytes s = .done (.fault .decoderStateIllFormed) ∨
      ∃ i : Instr, i.direction = .toHost ∧ runReceived bytes s = .run i s := by
  unfold runReceived
  split
  · rename_i i hd
    exact .inr ⟨i, decode_toHost_direction hd, rfl⟩
  · exact .inl rfl

/-- What a FEED comes to from any state, legal or not: its byte stands in `prev` of the decoder state that it leaves, or
that the instruction it completes runs on (spec/41_frame_decoder.md R82). -/
theorem feed_prev_cases (b : Byte) (s : State) :
    feed b s = .done (.fault .decoderStateIllFormed) ∨
      ∃ d, d.prev = b ∧
        (feed b s = quiet d s ∨ ∃ i : Instr, i.direction = .toHost ∧ feed b s = .run i { s with dec := d }) := by
  cases hs : s.dec.synced with
  | false =>
    have hf := feed_hunting b hs
    unfold feedHunt at hf
    split at hf
    · exact .inr ⟨_, rfl, .inl hf⟩
    · exact .inr ⟨_, rfl, .inl hf⟩
  | true =>
    cases hi : s.dec.instruction with
    | none =>
      have hf := feed_instr b hs hi
      rcases feedInstr_cases b { s.dec with prev := b } s with ⟨_, h⟩ | ⟨_, h⟩ | ⟨_, _, _, h⟩
      · exact .inr ⟨_, rfl, .inl (hf.trans h)⟩
      · exact .inr ⟨_, rfl, .inl (hf.trans h)⟩
      · exact .inr ⟨_, rfl, .inr ⟨_, rfl, hf.trans h⟩⟩
    | some c =>
      have hf := feed_payload b hs hi
      unfold feedPayload at hf
      dsimp only at hf
      split at hf
      · rcases runReceived_cases _ _ with h | ⟨i, hd, h⟩
        · exact .inl (hf.trans h)
        · refine .inr ⟨_, ?_, .inr ⟨i, hd, hf.trans h⟩⟩
          rfl
      · exact .inr ⟨_, rfl, .inl hf⟩

/-- A FEED that goes on leaves its byte in `prev` (spec/41_frame_decoder.md R82). -/
theorem step_feed_prev {s t : State} {b : Byte} {rest : List Txn} (ht : s.todo = .feed b :: rest)
    (h : step s = .next t) : t.dec.prev = b := by
  rw [step_feed ht] at h
  rcases feed_prev_cases b { s with todo := rest } with hf | ⟨d, hp, hf | ⟨i, hi, hf⟩⟩
  · rw [hf] at h
    cases h
  · rw [hf] at h
    cases h
    exact hp
  · rw [hf, finish_run] at h
    rw [exec_toHost_dec hi h]
    exact hp

/-- The FEED of the byte after the marker (spec/41_frame_decoder.md R85 to R89). -/
theorem step_feed_instr {s : State} {b : Byte} {rest : List Txn} (hs : s.dec.synced = true)
    (hi : s.dec.instruction = none) (h : s.todo = .feed b :: rest) :
    ((b = 3#8 ∨ b = 5#8) ∧ step s = .next (s.afterQuiet { s.dec with prev := b, instruction := some b } rest 1)) ∨
      (b = 8#8 ∧ step s =
        .next (s.afterQuiet { s.dec with prev := b, instruction := some b, expectedLen := some 4 } rest 1)) ∨
      (b ≠ 3#8 ∧ b ≠ 5#8 ∧ b ≠ 8#8 ∧ step s = .next (s.afterQuiet (Decoder.hunting b) rest 1)) := by
  have hf := feed_instr (s := { s with todo := rest }) b hs hi
  rcases feedInstr_cases b { s.dec with prev := b } { s with todo := rest } with
    ⟨hc, hq⟩ | ⟨hc, hq⟩ | ⟨h3, h5, h8, hr⟩
  · exact .inl ⟨hc, step_quiet h (hf.trans hq)⟩
  · exact .inr (.inl ⟨hc, step_quiet h (hf.trans hq)⟩)
  · refine .inr (.inr ⟨h3, h5, h8, ?_⟩)
    rw [step_feed h, hf, hr]
    rfl

/-- The FEED of a payload byte that does not complete the frame, from a legal decoder state (spec/41_frame_decoder.md
R90 to R93). -/
theorem step_feed_buffered {s : State} {b c : Byte} {rest : List Txn} (hw : s.dec.wf = true)
    (hi : s.dec.instruction = some c) (h : s.todo = .feed b :: rest)
    (hne : expectedLenOf (some c) (s.dec.payloadBuf ++ [b]) ≠ some (s.dec.payloadBuf.length + 1)) :
    step s = .next (s.afterQuiet { s.dec with
      prev := b, payloadBuf := s.dec.payloadBuf ++ [b],
      expectedLen := expectedLenOf (some c) (s.dec.payloadBuf ++ [b]) } rest 1) := by
  rcases feedPayload_cases (s := { s with todo := rest }) b hw hi with ⟨_, _, hf⟩ | ⟨he, _⟩
  · exact step_quiet h hf
  · exact absurd (he.trans (by simp)) hne

/-- The FEED of the byte that completes a frame runs the instruction that the frame is, the byte in `prev`
(spec/41_frame_decoder.md R94). -/
theorem step_feed_completes {s : State} {b c : Byte} {rest : List Txn} {i : Instr} (hw : s.dec.wf = true)
    (hi : s.dec.instruction = some c) (h : s.todo = .feed b :: rest)
    (he : expectedLenOf (some c) (s.dec.payloadBuf ++ [b]) = some (s.dec.payloadBuf ++ [b]).length)
    (hd : decode .toHost (frameHead c ++ (s.dec.payloadBuf ++ [b])) = .ok (i, [])) :
    ∃ d, d.prev = b ∧ step s = exec i (s.afterQuiet d rest 0) := by
  rcases feedPayload_cases (s := { s with todo := rest }) b hw hi with ⟨hne, _⟩ | ⟨_, _, j, hdj, hf⟩
  · exact absurd he hne
  · obtain rfl : i = j := by simpa using hd.symm.trans hdj
    refine ⟨{ s.dec with
      prev := b, payloadBuf := s.dec.payloadBuf ++ [b],
      expectedLen := expectedLenOf (some c) (s.dec.payloadBuf ++ [b]) }, rfl, ?_⟩
    rw [step_feed h, hf, finish_run]
    simp only [State.afterQuiet, List.replicate_zero, List.append_nil]

/-! ## Complete frames -/

/-- The verdict in the statements' terms (spec/40_crc16.md R75). -/
theorem verdict_iff_extractLsb' {h : List Byte} {lo hi : Byte} :
    verdict h lo hi = true ↔ lo = (crc16 h).extractLsb' 0 8 ∧ hi = (crc16 h).extractLsb' 8 8 := by
  rw [verdict_iff, lo8_eq_extractLsb', hi8_eq_extractLsb']

theorem verdict_eq_false_iff_extractLsb' {h : List Byte} {lo hi : Byte} :
    verdict h lo hi = false ↔ ¬(lo = (crc16 h).extractLsb' 0 8 ∧ hi = (crc16 h).extractLsb' 8 8) := by
  rw [← verdict_iff_extractLsb', Bool.not_eq_true]

/-- A data frame with a wrong check byte is discarded (spec/41_frame_decoder.md R96). -/
theorem exec_dataRow_invalid {code : Byte} {mk : Byte → List Byte → Byte → Byte → Instr}
    {ev : Byte → List Byte → Event} (hrow : IsDataRow code mk ev) {addr : Byte} {data : List Byte} {lo hi : Byte}
    (hv : verdict (dataHeader code addr data) lo hi = false) (s : State) :
    exec (mk addr data lo hi) s = .next (s.framingReset.emit (.fed none)) := by
  rcases hrow with ⟨rfl, rfl, rfl⟩ | ⟨rfl, rfl, rfl⟩
  · exact completeFrame_invalid (fun t => t.commit addr data) (.readResponse addr data) s hv
  · exact completeFrame_invalid (fun t => t.commit addr data) (.feedback addr data) s hv

/-- An alarm frame leaves the framing reset whatever its check bytes; they decide its result alone
(spec/41_frame_decoder.md R96, R99). -/
theorem exec_alarm (level type lo hi : Byte) (s : State) :
    exec (.alarm level type lo hi) s = .next (s.framingReset.emit (.fed
      (if lo = (crc16 [0xAA, 0x77, 0x08, level, type]).extractLsb' 0 8 ∧
          hi = (crc16 [0xAA, 0x77, 0x08, level, type]).extractLsb' 8 8
       then some (.alarm level type) else none))) := by
  have hh : alarmHeader level type = [0xAA, 0x77, 0x08, level, type] := rfl
  rw [← hh]
  by_cases hv : lo = (crc16 (alarmHeader level type)).extractLsb' 0 8 ∧
      hi = (crc16 (alarmHeader level type)).extractLsb' 8 8
  · rw [if_pos hv]
    exact completeFrame_valid (fun t => t) _ s (verdict_iff_extractLsb'.mpr hv)
  · rw [if_neg hv]
    exact completeFrame_invalid (fun t => t) (.alarm level type) s (verdict_eq_false_iff_extractLsb'.mpr hv)

/-- The bytes after the instruction byte of a data frame are read as its row (spec/41_frame_decoder.md R86, R87). -/
theorem decode_dataRow {code : Byte} {mk : Byte → List Byte → Byte → Byte → Instr} {ev : Byte → List Byte → Event}
    (hrow : IsDataRow code mk ev) {data : List Byte} (hl : data.length ≤ 255) (addr lo hi : Byte) :
    decode .toHost (frameHead code ++ addr :: lenByte data :: (data ++ [lo, hi])) = .ok (mk addr data lo hi, []) := by
  rcases hrow with ⟨rfl, rfl, rfl⟩ | ⟨rfl, rfl, rfl⟩
  · exact decodeData_eq .rdRsp addr (lenByte data) lo hi data [] (toNat_lenByte hl).symm
  · exact decodeData_eq .fb addr (lenByte data) lo hi data [] (toNat_lenByte hl).symm

end Sys2Proof.Machine

/-!
PROOF. A whole frame fed to a hunting decoder: marker, instruction byte and payload are buffered without an event, and
the last byte runs the instruction that the frame is (spec/41_frame_decoder.md R81, R86 to R88).
-/

namespace Sys2Proof.Machine

/-! ## The length of a buffer that grows -/

/-- A shorter buffer has no length yet, or already the length of the longer one: it is computed once per frame
(spec/41_frame_decoder.md R92). -/
theorem expectedLenOf_take (c : Byte) (bytes : List Byte) (k : Nat) :
    expectedLenOf (some c) (bytes.take k) = none ∨
      expectedLenOf (some c) (bytes.take k) = expectedLenOf (some c) bytes := by
  by_cases hc : c = Config.iAlarm
  · exact .inr (by simp [expectedLenOf, hc])
  · match bytes, k with
    | [], _ => exact .inr (by rw [List.take_nil])
    | _ :: _, 0 => exact .inl (by simp [expectedLenOf, hc])
    | [_], _ + 1 => exact .inr (by simp)
    | _ :: _ :: _, 1 => exact .inl (by simp [expectedLenOf, hc])
    | _ :: _ :: _, _ + 2 => exact .inr (by simp [expectedLenOf, hc])

/-- No proper part of a complete payload is complete. -/
theorem expectedLenOf_take_ne {c : Byte} {bytes : List Byte} (he : expectedLenOf (some c) bytes = some bytes.length)
    {k : Nat} (hk : k < bytes.length) : expectedLenOf (some c) (bytes.take k) ≠ some k := by
  rcases expectedLenOf_take c bytes k with h | h
  · rw [h]
    exact Option.some_ne_none k |>.symm
  · rw [h, he]
    exact fun h => hk.ne' (Option.some.inj h)

/-- The payload of a data frame is complete (spec/41_frame_decoder.md R92). -/
theorem expectedLenOf_dataPayload {c : Byte} (hc : c = 3#8 ∨ c = 5#8) {data : List Byte} (hl : data.length ≤ 255)
    (addr lo hi : Byte) :
    expectedLenOf (some c) (addr :: lenByte data :: (data ++ [lo, hi])) =
      some (addr :: lenByte data :: (data ++ [lo, hi])).length := by
  rw [expectedLenOf_data hc, toNat_lenByte hl]
  simp

/-! ## Feeding a frame -/

section

variable {s : State} {c : Byte} {bytes : List Byte} {rest : List Txn}

/-- The marker and an accepted instruction byte, fed from hunting: the code is stored and nothing is buffered
(spec/41_frame_decoder.md R83 to R88). -/
theorem runs_frameHead (hc : c = 3#8 ∨ c = 5#8 ∨ c = 8#8) (hw : s.dec.wf = true) (hs : s.dec.synced = false)
    (ht : s.todo = feeds (frameHead c) ++ rest) :
    ∃ d, d.wf = true ∧ d.instruction = some c ∧ d.payloadBuf = [] ∧ runs 3 s = .next (s.afterQuiet d rest 3) := by
  have hh := eq_hunting_of_wf hw hs
  have hm := runs_marker (rest := .feed c :: rest) hs ht
  generalize hd : ({ s.dec with synced := true, prev := Config.marker1 } : Decoder) = d at hm
  have hsync : d.synced = true := by rw [← hd]
  have hins : d.instruction = none := by rw [← hd, hh]; rfl
  have hwd : d.wf = true := by rw [← hd, hh]; simp [wf_iff]
  obtain ⟨hbuf, _⟩ := wf_none hwd hins
  obtain ⟨d', hi', hb', hstep⟩ : ∃ d', d'.instruction = some c ∧ d'.payloadBuf = d.payloadBuf ∧
      step (s.afterQuiet d (.feed c :: rest) 2) = .next ((s.afterQuiet d (.feed c :: rest) 2).afterQuiet d' rest 1) := by
    rcases step_feed_instr (s := s.afterQuiet d (.feed c :: rest) 2) hsync hins rfl with
      ⟨_, h⟩ | ⟨_, h⟩ | ⟨h3, h5, h8, _⟩
    · exact ⟨{ d with prev := c, instruction := some c }, rfl, rfl, h⟩
    · exact ⟨{ d with prev := c, instruction := some c, expectedLen := some 4 }, rfl, rfl, h⟩
    · exact (hc.elim h3 fun h => h.elim h5 h8).elim
  refine ⟨d', step_dec_wf (t := State.afterQuiet _ d' rest 1) hwd hstep, hi', hb'.trans hbuf, ?_⟩
  rw [runs_add (n := 1) hm, runs_one, hstep, afterQuiet_afterQuiet]

/-- The marker, the instruction byte and payload bytes that do not complete the frame. -/
theorem runs_frameHead_payload (hc : c = 3#8 ∨ c = 5#8 ∨ c = 8#8) (hw : s.dec.wf = true) (hs : s.dec.synced = false)
    (ht : s.todo = feeds (frameHead c ++ bytes) ++ rest)
    (hne : ∀ k, 1 ≤ k → k ≤ bytes.length → expectedLenOf (some c) (bytes.take k) ≠ some k) :
    ∃ d, d.wf = true ∧ d.instruction = some c ∧ d.payloadBuf = bytes ∧
      runs (bytes.length + 3) s = .next (s.afterQuiet d rest (bytes.length + 3)) := by
  rw [feeds_append, List.append_assoc] at ht
  obtain ⟨d, hwd, hi, hb, hhead⟩ := runs_frameHead hc hw hs ht
  obtain ⟨d', hwd', hi', hb', _, hpay⟩ :=
    runs_payload c bytes (s.afterQuiet d (feeds bytes ++ rest) 3) rest hwd hi rfl (by simpa [hb] using hne)
  rw [afterQuiet_dec, hb, List.nil_append] at hb'
  refine ⟨d', hwd', hi', hb', ?_⟩
  rw [Nat.add_comm, runs_add hhead, hpay, afterQuiet_afterQuiet]

/-- Every FEED of a frame before its last returns `None` and leaves everything but the decoder as it is. -/
theorem runs_within_frame (hc : c = 3#8 ∨ c = 5#8 ∨ c = 8#8) (hw : s.dec.wf = true) (hs : s.dec.synced = false)
    (he : expectedLenOf (some c) bytes = some bytes.length) (ht : s.todo = feeds (frameHead c ++ bytes) ++ rest)
    {k : Nat} (hk : k < bytes.length + 3) :
    ∃ d, runs k s = .next (s.afterQuiet d (feeds ((frameHead c ++ bytes).drop k) ++ rest) k) := by
  match k, hk with
  | 0, _ => exact ⟨s.dec, by rw [List.drop_zero, ← ht, runs_zero]; simp [State.afterQuiet]⟩
  | 1, _ => exact ⟨_, (runs_one s).trans (step_feed_hunting hs ht)⟩
  | 2, _ => exact ⟨_, runs_marker hs ht⟩
  | j + 3, hk =>
    have hj : j < bytes.length := by omega
    have htake : (bytes.take j).length = j := List.length_take_of_le hj.le
    have ht' : s.todo = feeds (frameHead c ++ bytes.take j) ++ (feeds (bytes.drop j) ++ rest) := by
      rw [ht, ← List.append_assoc, ← feeds_append, List.append_assoc, List.take_append_drop]
    obtain ⟨d, _, _, _, hrun⟩ := runs_frameHead_payload hc hw hs ht' fun m _ hm => by
      rw [List.take_take, Nat.min_eq_left (htake ▸ hm)]
      exact expectedLenOf_take_ne he (by omega)
    rw [htake] at hrun
    exact ⟨d, hrun⟩

/-- A whole frame fed from hunting does what its instruction does, after `None` for every byte but the last, and with
the last byte in `prev` (spec/41_frame_decoder.md R81, R94). -/
theorem runs_frame {i : Instr} (hc : c = 3#8 ∨ c = 5#8 ∨ c = 8#8) (hw : s.dec.wf = true) (hs : s.dec.synced = false)
    (he : expectedLenOf (some c) bytes = some bytes.length)
    (hd : decode .toHost (frameHead c ++ bytes) = .ok (i, []))
    (ht : s.todo = feeds (frameHead c ++ bytes) ++ rest) :
    ∃ d, some d.prev = bytes.getLast? ∧
      runs (bytes.length + 3) s = exec i (s.afterQuiet d rest (bytes.length + 2)) := by
  rcases List.eq_nil_or_concat bytes with rfl | ⟨body, b, rfl⟩
  · exact absurd (expectedLenOf_le he).1 (by decide)
  rw [List.concat_eq_append] at *
  have hlen : (body ++ [b]).length = body.length + 1 := List.length_append
  have ht' : s.todo = feeds (frameHead c ++ body) ++ (.feed b :: rest) := by
    rw [ht, ← List.append_assoc, feeds_append, List.append_assoc]
    rfl
  obtain ⟨d, hwd, hi, hb, hrun⟩ := runs_frameHead_payload hc hw hs ht' fun k _ hk => by
    have := expectedLenOf_take_ne he (k := k) (by omega)
    rwa [List.take_append_of_le_length hk] at this
  subst hb
  obtain ⟨d', hp, hstep⟩ :=
    step_feed_completes (s := s.afterQuiet d (.feed b :: rest) (d.payloadBuf.length + 3)) hwd hi rfl he hd
  refine ⟨d', by rw [hp, List.getLast?_concat], ?_⟩
  rw [hlen, Nat.add_right_comm, runs_add hrun, runs_one, hstep, afterQuiet_afterQuiet, Nat.add_zero]

end

end Sys2Proof.Machine

/-!
PROOF. The statements about the Frame Decoder (spec/41_frame_decoder.md).
-/

namespace Sys2Proof

open Machine

/-- Settles O20. -/
theorem huntingSyncsOnTheMarkerOnly : Obligations.HuntingSyncsOnTheMarkerOnly := by
  intro s b rest ht hs
  refine ⟨fun hm => ?_, fun hm => ?_⟩
  · rw [step_feed_hunting hs ht, decide_eq_true (show s.dec.prev = Config.marker0 ∧ b = Config.marker1 from hm)]
    rfl
  · rw [step_feed_hunting hs ht, decide_eq_false (show ¬(s.dec.prev = Config.marker0 ∧ b = Config.marker1) from hm),
      ← hs]
    rfl

/-- Settles O21: each of the three clauses excludes the two other cases of the dispatch. -/
theorem instructionByteIsDispatched : Obligations.InstructionByteIsDispatched := by
  intro s b rest ht hs hi
  rcases step_feed_instr hs hi ht with ⟨hc, h⟩ | ⟨rfl, h⟩ | ⟨h3, h5, h8, h⟩
  · exact ⟨fun _ => h, fun h8 => absurd hc (by rw [h8]; decide), fun hn => absurd hc (not_or.mpr ⟨hn.1, hn.2.1⟩)⟩
  · exact ⟨fun hc => absurd hc (by decide), fun _ => h, fun hn => absurd rfl hn.2.2⟩
  · exact ⟨fun hc => absurd hc (not_or.mpr ⟨h3, h5⟩), fun hc => absurd hc h8, fun _ => h⟩

/-- Settles O14: right check bytes choose the event. -/
theorem validAlarmReturnsEvent : Obligations.ValidAlarmReturnsEvent := by
  intro level type lo hi s hlo hhi
  rw [exec_alarm, if_pos ⟨hlo, hhi⟩]
  rfl

/-- Settles O15: row by row, the wrong check byte makes the verdict false. -/
theorem wrongCheckBytesDiscard : Obligations.WrongCheckBytesDiscard := by
  intro i h lo hi hrow hwrong s
  rw [← not_and_or] at hwrong
  rcases hrow with ⟨addr, data, _, rfl, rfl⟩ | ⟨addr, data, _, rfl, rfl⟩ | ⟨level, type, rfl, rfl⟩
  · exact exec_dataRow_invalid (.inl ⟨rfl, rfl, rfl⟩) (verdict_eq_false_iff_extractLsb'.mpr hwrong) s
  · exact exec_dataRow_invalid (.inr ⟨rfl, rfl, rfl⟩) (verdict_eq_false_iff_extractLsb'.mpr hwrong) s
  · rw [exec_alarm, if_neg hwrong]
    rfl

/-- Settles O22: in a legal state the `expectedLen` of the statement is that of the longer buffer (R25 item 4). -/
theorem payloadByteIsBuffered : Obligations.PayloadByteIsBuffered := by
  intro s b c rest e hinv ht hi he hne
  obtain ⟨_, _, hw⟩ := (inv_iff s).mp hinv
  obtain ⟨_, hc, hexp, _, _⟩ := wf_some hw hi
  have hlen : e = expectedLenOf (some c) (s.dec.payloadBuf ++ [b]) := by
    rw [he, expectedLenOf_snoc hc, hexp]
    by_cases h8 : c = 0x08
    · rw [if_pos h8, if_neg fun h => h.1 h8]
    · rw [if_neg h8]
      exact if_congr (and_iff_right h8).symm rfl rfl
  rw [hlen] at hne ⊢
  exact step_feed_buffered hw hi ht hne

/-- Settles O30. -/
theorem prevIsTheLastFedByte : Obligations.PrevIsTheLastFedByte :=
  fun _ _ _ _ ht h => step_feed_prev ht h

/-- Settles O42: the whole frame runs ALARM, whose result alone depends on the check bytes. -/
theorem alarmFrameNetEffect : Obligations.AlarmFrameNetEffect := by
  intro s level type lo hi rest hinv hs ht
  obtain ⟨_, _, hw⟩ := (inv_iff s).mp hinv
  have hc : 8#8 = 3#8 ∨ 8#8 = 5#8 ∨ 8#8 = 8#8 := .inr (.inr rfl)
  constructor
  · obtain ⟨d, hwd, hi, hb, hrun⟩ := runs_frameHead (rest := feeds [level, type, lo, hi] ++ rest) hc hw hs ht
    obtain ⟨_, _, he, _⟩ := wf_some hwd hi
    exact ⟨_, hrun, hi, he⟩
  · obtain ⟨d, hp, hrun⟩ :=
      runs_frame (bytes := [level, type, lo, hi]) (i := .alarm level type lo hi) hc hw hs rfl rfl ht
    obtain rfl : d.prev = hi := by simpa using hp
    exact hrun.trans (exec_alarm ..)

/-- Settles O41: the whole frame runs `RD_RSP` or `FB`, and the verdict on its check bytes decides between the commit and
the discard. -/
theorem dataFrameNetEffect : Obligations.DataFrameNetEffect := by
  intro code ev hcode s addr data lo hi h rest hinv hs hl hh ht
  obtain ⟨hmap, _, hw⟩ := (inv_iff s).mp hinv
  obtain ⟨mk, hrow⟩ : ∃ mk, IsDataRow code mk ev :=
    hcode.elim (fun h => ⟨.rdRsp, .inl ⟨h.1, rfl, h.2⟩⟩) (fun h => ⟨.fb, .inr ⟨h.1, rfl, h.2⟩⟩)
  have hdata : code = 3#8 ∨ code = 5#8 := hcode.imp And.left And.left
  have hc : code = 3#8 ∨ code = 5#8 ∨ code = 8#8 := hdata.imp_right .inl
  have he := expectedLenOf_dataPayload hdata hl addr lo hi
  have hlen : (addr :: lenByte data :: (data ++ [lo, hi])).length = data.length + 4 := by simp
  rw [← dataHeader_eq] at hh
  subst hh
  change s.todo = feeds (frameHead code ++ addr :: lenByte data :: (data ++ [lo, hi])) ++ rest at ht
  refine ⟨fun k hk => ?_, ?_, ?_⟩
  · obtain ⟨d, hrun⟩ := runs_within_frame hc hw hs he ht (k := k) (by omega)
    exact ⟨_, hrun, rfl, rfl⟩
  · rw [feeds_append, List.append_assoc] at ht
    obtain ⟨d, hwd, hi, hb, hrun⟩ := runs_frameHead hc hw hs ht
    obtain ⟨_, _, hexp, _⟩ := wf_some hwd hi
    exact ⟨_, hrun, hi, by rw [afterQuiet_dec, hexp, hb, expectedLenOf_head hdata (by decide)]⟩
  · obtain ⟨d, hp, hrun⟩ := runs_frame hc hw hs he (decode_dataRow hrow hl addr lo hi) ht
    rw [hlen] at hrun
    obtain rfl : d.prev = hi := by simpa [List.getLast?_cons] using hp
    cases hv : verdict (dataHeader code addr data) lo d.prev with
    | true =>
      refine ⟨_, hrun.trans (exec_dataRow_valid hrow hv _), rfl, rfl, rfl, fun _ => ⟨rfl, fun a => ?_⟩,
        fun hwrong => absurd (verdict_iff_extractLsb'.mp hv) hwrong⟩
      exact Memory.read_memWrite_eq hmap
    | false =>
      exact ⟨_, hrun.trans (exec_dataRow_invalid hrow hv _), rfl, rfl, rfl,
        fun hright => absurd hright (verdict_eq_false_iff_extractLsb'.mp hv), fun _ => ⟨rfl, rfl⟩⟩

end Sys2Proof

/-!
PROOF. The Frame Builder's two instructions on `exec` (spec/42_frame_builder.md R107 to R110), and what one transaction
adds to the transmit stream (spec/20_memory.md R30).
-/

namespace Sys2Proof.Machine

/-! ## Building a frame -/

/-- An assembled frame, its check bytes written out (spec/42_frame_builder.md R107). -/
theorem assemble_eq (h : List Byte) :
    assemble h = h ++ [(crc16 h).extractLsb' 0 8, (crc16 h).extractLsb' 8 8] := by
  rw [assemble, checkBytes, lo8_eq_extractLsb', hi8_eq_extractLsb']

/-- The header of a request, its bytes written out (spec/30_encoding.md R46, R49). -/
theorem requestHeader_eq (addr len : Byte) : requestHeader addr len = [0xAA, 0x77, 0x03, addr, len] := rfl

/-- BUILD_READ returns its frame from every state (spec/42_frame_builder.md R108). -/
theorem exec_rdReq (addr len : Byte) (s : State) :
    exec (.rdReq addr len) s = .next (s.emit (.frame (encode (.rdReq addr len)))) := rfl

/-- BUILD_WRITE returns its frame where the data fits (spec/42_frame_builder.md R109). -/
theorem exec_wr_of_fits {data : List Byte} (hl : data.length ≤ 255) (addr : Byte) (s : State) :
    exec (.wr addr data) s = .next (s.emit (.frame (encode (.wr addr data)))) := if_pos hl

/-- BUILD_WRITE is refused where the data does not fit (spec/42_frame_builder.md R110). -/
theorem exec_wr_of_long {data : List Byte} (hl : 255 < data.length) (addr : Byte) (s : State) :
    exec (.wr addr data) s = .refused .writeTooLong := if_neg hl.not_ge

/-! ## The transmit stream -/

@[simp] theorem txStream_nil : txStream [] = [] := rfl
@[simp] theorem txStream_frame (bytes : List Byte) (rs : List Result) :
    txStream (.frame bytes :: rs) = bytes ++ txStream rs := rfl
@[simp] theorem txStream_fed (e : Option Event) (rs : List Result) : txStream (.fed e :: rs) = txStream rs := rfl
@[simp] theorem txStream_value (v : Byte) (rs : List Result) : txStream (.value v :: rs) = txStream rs := rfl
@[simp] theorem txStream_crc (c : Word16) (rs : List Result) : txStream (.crc c :: rs) = txStream rs := rfl
@[simp] theorem txStream_resetDone (rs : List Result) : txStream (.resetDone :: rs) = txStream rs := rfl

@[simp] theorem txStream_append (a b : List Result) : txStream (a ++ b) = txStream a ++ txStream b := by
  induction a with
  | nil => rfl
  | cons r a ih => cases r <;> simp [ih]

/-- A FEED that goes on, from any state, legal or not, returns one event or `None` (spec/10_state.md R23): no received
byte is answered with a frame. -/
theorem step_feed_results {s t : State} {b : Byte} {rest : List Txn} (ht : s.todo = .feed b :: rest)
    (h : step s = .next t) : ∃ e, t.results = s.results ++ [.fed e] := by
  rw [step_feed ht] at h
  rcases feed_prev_cases b { s with todo := rest } with hf | ⟨d, _, hf | ⟨i, hi, hf⟩⟩
  · rw [hf] at h
    cases h
  · rw [hf] at h
    cases h
    exact ⟨none, rfl⟩
  · obtain ⟨e, he⟩ := exec_toHost_event hi { s with todo := rest, dec := d }
    rw [hf, finish_run, he] at h
    cases h
    exact ⟨e, rfl⟩

end Sys2Proof.Machine

/-!
PROOF. The statements about the Frame Builder and the transmit stream (spec/42_frame_builder.md).
-/

namespace Sys2Proof

open Machine

/-- Settles O9. -/
theorem buildReadReturnsRequest : Obligations.BuildReadReturnsRequest := by
  refine ⟨fun addr len s => ?_, by decide +kernel⟩
  rw [exec_rdReq, encode, assemble_eq, requestHeader_eq]
  rfl

/-- Settles O10. -/
theorem buildWriteReturnsFrame : Obligations.BuildWriteReturnsFrame := by
  refine ⟨fun addr data s hl => ?_, by decide +kernel⟩
  rw [exec_wr_of_fits hl, encode, assemble_eq, dataHeader_eq]
  rfl

/-- Settles O11. -/
theorem buildWriteRefusesLongData : Obligations.BuildWriteRefusesLongData :=
  fun addr _ s hl => exec_wr_of_long hl addr s

/-- Settles O12: every transaction returns one result, and only that of a build is a frame. -/
theorem onlyTheBuilderTransmits : Obligations.OnlyTheBuilderTransmits := by
  intro s t tx rest ht h
  cases tx with
  | feed b =>
    obtain ⟨e, he⟩ := step_feed_results ht h
    simp [he]
  | regRead a =>
    rw [step_regRead ht] at h
    cases h
    simp
  | crc16 m =>
    rw [step_crc16 ht] at h
    cases h
    simp
  | buildRead addr len =>
    rw [step_buildRead ht] at h
    cases h
    simp [encode]
  | buildWrite addr data =>
    rw [step_buildWrite ht] at h
    split at h
    · cases h
      simp [encode]
    · cases h
  | reset =>
    rw [step_reset ht] at h
    cases h
    simp

end Sys2Proof

/-!
PROOF. The discard of an unknown instruction (spec/60_exceptions.md R121).
-/

namespace Sys2Proof.Machine

/-- UNKNOWN_RX is the discard procedure, whatever its byte (spec/41_frame_decoder.md R89). -/
theorem exec_unknownRx (code : Byte) (s : State) :
    exec (.unknownRx code) s = .next (s.framingReset.emit (.fed none)) := discard_eq .framingError s

/-- A FEED that ends a frame: the four assignments of the framing reset (spec/41_frame_decoder.md R101), `prev` kept,
and one result. -/
theorem framingReset_emit_fed (s : State) (e : Option Event) :
    s.framingReset.emit (.fed e) = { s with
      dec := { synced := false, instruction := none, payloadBuf := [], expectedLen := none, prev := s.dec.prev }
      results := s.results ++ [.fed e] } := rfl

end Sys2Proof.Machine

namespace Sys2Proof

open Machine

/-- Settles O16: the discard does not look at the byte, so the three exclusions are not used. -/
theorem unknownInstructionDiscards : Obligations.UnknownInstructionDiscards := by
  intro code s _ _ _
  rw [exec_unknownRx, framingReset_emit_fed]

end Sys2Proof

/-!
PROOF. RESET as a transaction (spec/70_reset_and_hazards.md R132).
-/

namespace Sys2Proof.Machine

/-- The decoder RESET leaves, item by item: R26's initial values, `prev` among them (spec/10_state.md R15 to R19). -/
theorem hunting_prevInit : Decoder.hunting Config.prevInit =
    { synced := false, instruction := none, payloadBuf := [], expectedLen := none, prev := 0x00 } := rfl

end Sys2Proof.Machine

namespace Sys2Proof

open Machine

/-- Settles O24: RESET as a step takes nothing from the old decoder, so a frame under way makes no difference. -/
theorem resetRestoresTheBlock : Obligations.ResetRestoresTheBlock := by
  intro s rest htodo
  rw [step_reset htodo, hunting_prevInit, State.emit]

end Sys2Proof

/-!
PROOF. Instructions as bytes: reading the bytes of a well-formed instruction gives it back, and what the receive side
reads are the bytes of the instruction it answers (spec/30_encoding.md sections 2 to 5).
-/

namespace Sys2Proof

open Machine

/-! ## From an instruction to bytes and back -/

/-- Assembled bytes with anything after them: the header, the two check bytes, the rest (spec/42_frame_builder.md
R107). -/
theorem assemble_append (h rest : List Byte) :
    assemble h ++ rest = h ++ lo8 (crc16 h) :: hi8 (crc16 h) :: rest := List.append_assoc h _ rest

/-- A frame of format `RD` with anything after it, read after its instruction byte (spec/30_encoding.md R50, R54). -/
theorem decodeData_payload (mk : Byte → List Byte → Byte → Byte → Instr) {data : List Byte} (hl : data.length ≤ 255)
    (addr lo hi : Byte) (rest : List Byte) :
    decodeData mk (addr :: lenByte data :: (data ++ lo :: hi :: rest)) = .ok (mk addr data lo hi, rest) :=
  decodeData_eq mk addr (lenByte data) lo hi data rest (toNat_lenByte hl).symm

/-- The bytes of a data row with anything after them: what follows the instruction byte. -/
theorem dataHeader_append (code addr : Byte) (data : List Byte) (lo hi : Byte) (rest : List Byte) :
    dataHeader code addr data ++ [lo, hi] ++ rest =
      frameHead code ++ addr :: lenByte data :: (data ++ lo :: hi :: rest) := by
  simp [dataHeader]

/-- A code that is none of the three is not accepted (spec/30_encoding.md R57). -/
theorem acceptedCode_eq_false {code : Byte} (h3 : code ≠ 3#8) (h5 : code ≠ 5#8) (h8 : code ≠ 8#8) :
    acceptedCode code = false := by
  simp [acceptedCode, Config.iRead, Config.iFeedback, Config.iAlarm, h3, h5, h8]

/-! ## From bytes to a received instruction and back -/

/-- What reading the format `RD` answers with a row whose check bytes are operands is well formed, and no byte of it is
dropped. -/
theorem decodeData_payload_cases {mk : Byte → List Byte → Byte → Byte → Instr} {bs rest : List Byte} {i : Instr}
    (h : decodeData mk bs = .ok (i, rest)) :
    ∃ addr data lo hi, data.length ≤ 255 ∧ i = mk addr data lo hi ∧
      bs = addr :: lenByte data :: (data ++ lo :: hi :: rest) := by
  obtain ⟨addr, len, data, lo, hi, hl, rfl, rfl⟩ := decodeData_cases h
  have hlen : lenByte data = len := by rw [lenByte, hl, BitVec.ofNat_toNat, BitVec.setWidth_eq]
  have hbound : data.length ≤ 255 := by
    have := len.isLt
    omega
  exact ⟨addr, data, lo, hi, hbound, rfl, by rw [hlen]⟩

/-- What the dispatch on a received code answers is well formed, and the bytes read are its encoding. -/
theorem decodeRx_cases {code : Byte} {bs rest : List Byte} {i : Instr} (h : decodeRx code bs = .ok (i, rest)) :
    i.wf = true ∧ frameHead code ++ bs = encode i ++ rest := by
  unfold decodeRx at h
  split at h
  · rename_i hc
    obtain ⟨addr, data, lo, hi, hl, rfl, rfl⟩ := decodeData_payload_cases h
    exact ⟨dataFits_iff.mpr hl, by rw [hc]; exact (dataHeader_append _ addr data lo hi rest).symm⟩
  · split at h
    · rename_i hc
      obtain ⟨addr, data, lo, hi, hl, rfl, rfl⟩ := decodeData_payload_cases h
      exact ⟨dataFits_iff.mpr hl, by rw [hc]; exact (dataHeader_append _ addr data lo hi rest).symm⟩
    · split at h
      · rename_i hc
        obtain ⟨level, type, lo, hi, rfl, rfl⟩ := decodeAlarm_cases h
        exact ⟨rfl, by rw [hc]; rfl⟩
      · rename_i h3 h5 h8
        cases h
        exact ⟨by rw [wf_unknownRx, acceptedCode_eq_false h3 h5 h8]; rfl, rfl⟩

/-- The receive side reads the marker, then dispatches on the code. -/
theorem decode_toHost_cases {bytes rest : List Byte} {i : Instr} (h : decode .toHost bytes = .ok (i, rest)) :
    ∃ code bs, bytes = frameHead code ++ bs ∧ decodeRx code bs = .ok (i, rest) := by
  unfold decode at h
  split at h
  · split at h
    · rename_i hm
      obtain ⟨rfl, rfl⟩ := hm
      exact ⟨_, _, rfl, h⟩
    · cases h
  · cases h

/-! ## The payload of a received row -/

/-- A received row is the unknown instruction, or a whole frame: an accepted code and a payload that is complete exactly
at its last byte (spec/41_frame_decoder.md R86 to R89, R92). -/
theorem encode_toHost_cases {i : Instr} (hw : i.wf = true) (hd : i.direction = .toHost) :
    (∃ code, acceptedCode code = false ∧ i = .unknownRx code) ∨
      ∃ c bytes, (c = 3#8 ∨ c = 5#8 ∨ c = 8#8) ∧ encode i = frameHead c ++ bytes ∧
        expectedLenOf (some c) bytes = some bytes.length := by
  have hpayload (code addr : Byte) (data : List Byte) (lo hi : Byte) : dataHeader code addr data ++ [lo, hi] =
      frameHead code ++ addr :: lenByte data :: (data ++ [lo, hi]) := by simp [dataHeader]
  cases i with
  | rdReq addr len => cases hd
  | wr addr data => cases hd
  | rdRsp addr data lo hi =>
    exact .inr ⟨3#8, _, .inl rfl, hpayload _ addr data lo hi,
      expectedLenOf_dataPayload (.inl rfl) (dataFits_iff.mp hw) addr lo hi⟩
  | fb addr data lo hi =>
    exact .inr ⟨5#8, _, .inr (.inl rfl), hpayload _ addr data lo hi,
      expectedLenOf_dataPayload (.inr rfl) (dataFits_iff.mp hw) addr lo hi⟩
  | alarm level type lo hi => exact .inr ⟨8#8, [level, type, lo, hi], .inr (.inr rfl), rfl, rfl⟩
  | unknownRx code =>
    rw [wf_unknownRx, Bool.not_eq_true'] at hw
    exact .inl ⟨code, hw, rfl⟩

end Sys2Proof

/-!
PROOF. The statements about encodings (spec/30_encoding.md).
-/

namespace Sys2Proof

open Machine

/-- Settles O49: row by row, the bytes after the instruction byte are the row's format. -/
theorem decodeInvertsEncode : Obligations.DecodeInvertsEncode := by
  intro i rest hw
  cases i with
  | rdReq addr len => rw [encode, assemble_append]; rfl
  | rdRsp addr data lo hi =>
    rw [encode, dataHeader_append]
    exact decodeData_payload .rdRsp (dataFits_iff.mp hw) addr lo hi rest
  | wr addr data =>
    have hbytes : encode (.wr addr data) ++ rest = _ := dataHeader_append Config.iWrite addr data _ _ rest
    rw [hbytes]
    exact decodeData_payload (fun addr data _ _ => .wr addr data) (dataFits_iff.mp hw) addr _ _ rest
  | fb addr data lo hi =>
    rw [encode, dataHeader_append]
    exact decodeData_payload .fb (dataFits_iff.mp hw) addr lo hi rest
  | alarm level type lo hi => rfl
  | unknownRx code =>
    rw [wf_unknownRx, Bool.not_eq_true'] at hw
    exact decodeRx_other hw rest

/-- Settles O50. -/
theorem encodeInvertsReceiveDecode : Obligations.EncodeInvertsReceiveDecode := by
  intro bytes i rest h
  obtain ⟨code, bs, rfl, hrx⟩ := decode_toHost_cases h
  obtain ⟨hw, hbytes⟩ := decodeRx_cases hrx
  exact ⟨hw, decode_toHost_direction h, hbytes⟩

/-- Settles O51. -/
theorem otherCodesDecodeAsUnknown : Obligations.OtherCodesDecodeAsUnknown :=
  fun _ rest h3 h5 h8 => decodeRx_other (acceptedCode_eq_false h3 h5 h8) rest

/-- Settles O52. -/
theorem writtenOutFramesDecode : Obligations.WrittenOutFramesDecode :=
  ⟨rfl, rfl, rfl, rfl, rfl, rfl⟩

end Sys2Proof

/-!
PROOF. The right-shifting CRC form, the residue of a whole frame, and the verdict on damaged bytes (spec/40_crc16.md R74
to R78).
-/

namespace Sys2Proof.Machine

/-! ## The right-shifting form -/

/-- Reflection turns a left shift by one into a right shift by one. -/
theorem reflect16_shiftLeft_one (a : Word16) : reflect16 (a <<< 1) = reflect16 a >>> 1 := by
  apply BitVec.eq_of_getLsbD_eq
  intro i hi
  rw [getLsbD_reflect16 _ i hi, BitVec.getLsbD_shiftLeft, BitVec.getLsbD_ushiftRight]
  rcases Nat.lt_or_ge i 15 with h | h
  · rw [getLsbD_reflect16 a (1 + i) (by omega), show 15 - i - 1 = 15 - (1 + i) by omega]
    simp [show 15 - i < 16 by omega, show ¬ 15 - i < 1 by omega]
  · rw [BitVec.getLsbD_of_ge _ (1 + i) (by omega)]
    simp [show 15 - i = 0 by omega]

/-- Reflection is linear over XOR. -/
theorem reflect16_xor (a b : Word16) : reflect16 (a ^^^ b) = reflect16 a ^^^ reflect16 b := by
  apply BitVec.eq_of_getLsbD_eq
  intro i hi
  rw [getLsbD_reflect16 _ i hi, BitVec.getLsbD_xor, BitVec.getLsbD_xor, getLsbD_reflect16 a i hi,
    getLsbD_reflect16 b i hi]

/-- A byte that enters the high half reflected is, reflected as a word, the byte in the low half. -/
theorem reflect16_reflect8_shiftLeft (b : Byte) : reflect16 ((reflect8 b).setWidth 16 <<< 8) = b.setWidth 16 := by
  apply BitVec.eq_of_getLsbD_eq
  intro i hi
  rw [getLsbD_reflect16 _ i hi, BitVec.getLsbD_shiftLeft, BitVec.getLsbD_setWidth, BitVec.getLsbD_setWidth]
  rcases Nat.lt_or_ge i 8 with h | h
  · rw [getLsbD_reflect8 b (15 - i - 8) (by omega), show 7 - (15 - i - 8) = i by omega]
    simp [hi, show 15 - i < 16 by omega, show ¬ 15 - i < 8 by omega, show 15 - i - 8 < 16 by omega]
  · rw [BitVec.getLsbD_of_ge b i h]
    simp [show 15 - i < 8 by omega]

/-- One bit step of the right-shifting form on a reflected accumulator is the reflection of one bit step
(spec/40_crc16.md R74): the bit shifted out is bit 15, now bit 0. -/
theorem bitstepLsb_reflect16 (a : Word16) : bitstepLsb (reflect16 a) = reflect16 (bitstep a) := by
  have hbit : (reflect16 a).getLsbD 0 = a.getLsbD 15 := getLsbD_reflect16 a 0 (by decide)
  unfold bitstepLsb
  rw [hbit]
  cases h : a.getLsbD 15 with
  | true => rw [if_pos rfl, bitstep_of_bit15 h, reflect16_xor, reflect16_shiftLeft_one]
  | false => rw [if_neg (by decide), bitstep_of_not_bit15 h, reflect16_shiftLeft_one]

theorem bitstepsLsb_reflect16 (n : Nat) (a : Word16) : bitstepsLsb n (reflect16 a) = reflect16 (bitsteps n a) := by
  induction n generalizing a with
  | zero => rfl
  | succ n ih => rw [bitstepsLsb, bitsteps, bitstepLsb_reflect16, ih]

theorem bytestepLsb_reflect16 (a : Word16) (b : Byte) :
    bytestepLsb (reflect16 a) b = reflect16 (bytestep a b) := by
  rw [bytestepLsb, bytestep, ← bitstepsLsb_reflect16, reflect16_xor, reflect16_reflect8_shiftLeft]

theorem foldl_bytestepLsb_reflect16 (m : List Byte) (a : Word16) :
    m.foldl bytestepLsb (reflect16 a) = reflect16 (m.foldl bytestep a) := by
  induction m generalizing a with
  | nil => rfl
  | cons b m ih => rw [List.foldl_cons, List.foldl_cons, bytestepLsb_reflect16, ih]

/-- The start value is its own reflection. -/
theorem reflect16_crcInit : reflect16 Config.crcInit = Config.crcInit := by decide

theorem crc16Lsb_eq_crc16 (m : List Byte) : crc16Lsb m = crc16 m := by
  rw [crc16_eq_reflect, crcAcc, ← foldl_bytestepLsb_reflect16, reflect16_crcInit, crc16Lsb]

/-! ## The residue of a whole frame -/

/-- The low half of a word that holds one byte in each half is its low byte. -/
theorem lo8_xor_of_halves (x y : Byte) : lo8 ((x.setWidth 16 <<< 8) ^^^ y.setWidth 16) = y := by
  apply BitVec.eq_of_getLsbD_eq
  intro i hi
  simp [lo8, hi]

/-- The high half of a word that holds one byte in each half is its high byte. -/
theorem hi8_xor_of_halves (x y : Byte) : hi8 ((x.setWidth 16 <<< 8) ^^^ y.setWidth 16) = x := by
  apply BitVec.eq_of_getLsbD_eq
  intro i hi
  simp [hi8, hi, show i < 16 by omega, show 8 + i < 16 by omega]

theorem bitsteps_zero (n : Nat) : bitsteps n 0#16 = 0#16 := by
  induction n with
  | zero => rfl
  | succ n ih => exact (congrArg (bitsteps n) (by decide : bitstep 0#16 = 0#16)).trans ih

/-- Only the zero accumulator has the CRC zero. -/
theorem crc16_eq_zero_iff (m : List Byte) : crc16 m = 0#16 ↔ crcAcc m = 0#16 := by
  rw [crc16_eq_reflect]
  exact reflect16_injective.eq_iff' (by decide)

/-- Two more bytes bring the CRC to zero exactly when, reflected, they are the two halves of the accumulator. -/
theorem crc16_append_two_eq_zero_iff (h : List Byte) (lo hi : Byte) :
    crc16 (h ++ [lo, hi]) = 0#16 ↔ reflect8 lo = hi8 (crcAcc h) ∧ reflect8 hi = lo8 (crcAcc h) := by
  rw [crc16_eq_zero_iff, crcAcc_append, List.foldl_cons, List.foldl_cons, List.foldl_nil, bytestep_bytestep]
  constructor
  · intro hz
    have hacc := BitVec.xor_eq_zero_iff.mp (bitsteps_eq_zero hz)
    rw [hacc, hi8_xor_of_halves, lo8_xor_of_halves]
    exact ⟨rfl, rfl⟩
  · rintro ⟨hlo, hhi⟩
    rw [hlo, hhi, hi8_xor_lo8, BitVec.xor_self]
    exact bitsteps_zero 16

/-- The check bytes of a header are the reflected halves of its accumulator (spec/40_crc16.md R68, R75). -/
theorem verdict_iff_crcAcc {h : List Byte} {lo hi : Byte} :
    verdict h lo hi = true ↔ reflect8 lo = hi8 (crcAcc h) ∧ reflect8 hi = lo8 (crcAcc h) := by
  have hflip (b c : Byte) : b = reflect8 c ↔ reflect8 b = c :=
    ⟨fun e => by rw [e, reflect8_reflect8], fun e => by rw [← e, reflect8_reflect8]⟩
  rw [verdict_iff_extractLsb', crc16_eq_reflect, extractLsb'_low_reflect16, extractLsb'_high_reflect16, hflip, hflip,
    ← hi8_eq_extractLsb', ← lo8_eq_extractLsb']

/-- The verdict is the test of the whole frame's CRC for zero (spec/40_crc16.md R78). -/
theorem verdict_iff_crc16_eq_zero {h : List Byte} {lo hi : Byte} :
    verdict h lo hi = true ↔ crc16 (h ++ [lo, hi]) = 0#16 :=
  verdict_iff_crcAcc.trans (crc16_append_two_eq_zero_iff h lo hi).symm

/-! ## Damaged bytes -/

/-- Check bytes are right for one CRC only. -/
theorem crc16_eq_of_verdict {h h' : List Byte} {lo hi : Byte} (hv : verdict h lo hi = true)
    (hv' : verdict h' lo hi = true) : crc16 h = crc16 h' := by
  obtain ⟨hlo, hhi⟩ := verdict_iff.mp hv
  obtain ⟨hlo', hhi'⟩ := verdict_iff.mp hv'
  rw [← hi8_xor_lo8 (crc16 h), ← hlo, ← hhi, hlo', hhi', hi8_xor_lo8]

/-- The check bytes of a header are wrong for a header that differs from it in one byte. -/
theorem verdict_eq_false_of_byte_ne {before after : List Byte} {b c lo hi : Byte} (hne : c ≠ b)
    (hv : verdict (before ++ b :: after) lo hi = true) : verdict (before ++ c :: after) lo hi = false := by
  rw [Bool.eq_false_iff]
  exact fun hv' => crc16_ne_of_byte_ne before after hne (crc16_eq_of_verdict hv' hv)

/-- The header of a data frame, split at a data byte; the length byte does not depend on the data's values. -/
theorem dataHeader_split_data (code addr b : Byte) (before after : List Byte) :
    dataHeader code addr (before ++ b :: after) =
      (frameHead code ++ addr :: BitVec.ofNat 8 (before.length + after.length + 1) :: before) ++ b :: after := by
  simp [dataHeader, lenByte, Nat.add_assoc]

/-- A flipped bit in the address makes right check bytes wrong. -/
theorem verdict_flip_addr {code addr lo hi : Byte} {data : List Byte} {k : Nat} (hk : k < 8)
    (hv : verdict (dataHeader code addr data) lo hi = true) :
    verdict (dataHeader code (addr ^^^ (1#8 <<< k)) data) lo hi = false :=
  verdict_eq_false_of_byte_ne (before := frameHead code) (xor_bit_ne addr hk) hv

/-- A flipped bit in a data byte makes right check bytes wrong. -/
theorem verdict_flip_data {code addr b lo hi : Byte} {before after : List Byte} {k : Nat} (hk : k < 8)
    (hv : verdict (dataHeader code addr (before ++ b :: after)) lo hi = true) :
    verdict (dataHeader code addr (before ++ (b ^^^ (1#8 <<< k)) :: after)) lo hi = false := by
  rw [dataHeader_split_data] at hv ⊢
  exact verdict_eq_false_of_byte_ne (xor_bit_ne b hk) hv

/-- A flipped bit in an alarm's level or type makes right check bytes wrong. -/
theorem verdict_flip_alarm {level type lo hi : Byte} {k : Nat} (hk : k < 8)
    (hv : verdict (alarmHeader level type) lo hi = true) :
    verdict (alarmHeader (level ^^^ (1#8 <<< k)) type) lo hi = false ∧
      verdict (alarmHeader level (type ^^^ (1#8 <<< k))) lo hi = false :=
  ⟨verdict_eq_false_of_byte_ne (before := frameHead Config.iAlarm) (xor_bit_ne level hk) hv,
    verdict_eq_false_of_byte_ne (before := frameHead Config.iAlarm ++ [level]) (xor_bit_ne type hk) hv⟩

end Sys2Proof.Machine

/-!
PROOF. The remaining statements about the CRC-16 unit, and the damage it finds (spec/40_crc16.md,
spec/70_reset_and_hazards.md R144).
-/

namespace Sys2Proof

open Machine

/-- Settles O6: the start value is its own reflection, and every step of one form is the reflection of the other's. -/
theorem rightShiftingFormAgrees : Obligations.RightShiftingFormAgrees :=
  ⟨crc16Lsb_eq_crc16, bitstepLsb_reflect16⟩

/-- Settles O7. -/
theorem rightCheckBytesLeaveZeroResidue : Obligations.RightCheckBytesLeaveZeroResidue :=
  fun _ _ _ => verdict_iff_extractLsb'.symm.trans verdict_iff_crc16_eq_zero

/-- Settles O17: an event means that the check bytes were right, and the flipped bit makes them wrong. -/
theorem singleBitDamageIsDiscarded : Obligations.SingleBitDamageIsDiscarded := by
  have hright {v : Bool} {e : Event} (h : (if v = true then some e else none) ≠ none) : v = true := by
    simpa using h
  intro lo hi k s hk
  refine ⟨fun addr data _ => ⟨fun h => ?_, fun h => ?_⟩, fun addr b before after _ => ⟨fun h => ?_, fun h => ?_⟩,
    fun level type h => ?_⟩
  · exact exec_dataRow_invalid (.inl ⟨rfl, rfl, rfl⟩) (verdict_flip_addr hk (hright h)) s
  · exact exec_dataRow_invalid (.inr ⟨rfl, rfl, rfl⟩) (verdict_flip_addr hk (hright h)) s
  · exact exec_dataRow_invalid (.inl ⟨rfl, rfl, rfl⟩) (verdict_flip_data hk (hright h)) s
  · exact exec_dataRow_invalid (.inr ⟨rfl, rfl, rfl⟩) (verdict_flip_data hk (hright h)) s
  · obtain ⟨hlevel, htype⟩ := verdict_flip_alarm hk (hright h)
    exact ⟨completeFrame_invalid (fun t => t) _ s hlevel, completeFrame_invalid (fun t => t) _ s htype⟩

/-- Settles O4. -/
theorem crcFoldsByteByByte : Obligations.CrcFoldsByteByByte :=
  ⟨crcAcc_nil, crcAcc_concat, crc16_eq_reflect, by decide +kernel⟩

/-- Settles O5. -/
theorem crcTableValues : Obligations.CrcTableValues :=
  ⟨by decide, by decide +kernel, by decide +kernel, by decide +kernel, by decide +kernel, by decide +kernel,
    by decide +kernel, by decide +kernel, by decide +kernel⟩

end Sys2Proof

/-!
PROOF. Everything one transaction can do, said once: a FEED depends on the decoder state and its byte alone, and every
other transaction leaves the decoder as it is, but for RESET (spec/20_memory.md R40, R43, spec/41_frame_decoder.md
R105).
-/

namespace Sys2Proof.Machine

/-! ## The event of a received instruction -/

/-- The end of a complete frame whose update writes what its event says: the verdict chooses the event, and the event
says what is written (spec/41_frame_decoder.md R96 to R101). -/
theorem completeFrame_eq (h : List Byte) (lo hi : Byte) {f : State → State} {e : Event} {s : State}
    (hf : f s = { s with regMap := eventWrites s.regMap e }) :
    completeFrame h lo hi f e s = .next (State.emit
      (State.framingReset { s with
        regMap := eventWrites? s.regMap (if verdict h lo hi = true then some e else none) })
      (.fed (if verdict h lo hi = true then some e else none))) := by
  cases hv : verdict h lo hi with
  | true =>
    rw [completeFrame_valid f e s hv, hf]
    rfl
  | false =>
    rw [completeFrame_invalid f e s hv]
    rfl

/-- A received instruction returns `frameEvent` of it, and writes what that event says (spec/41_frame_decoder.md R96 to
R99). -/
theorem exec_toHost_eq {i : Instr} (hd : i.direction = .toHost) (s : State) :
    exec i s = .next (State.emit
      (State.framingReset { s with regMap := eventWrites? s.regMap (frameEvent i) }) (.fed (frameEvent i))) := by
  cases i with
  | rdReq addr len => cases hd
  | wr addr data => cases hd
  | rdRsp addr data lo hi =>
    exact completeFrame_eq (f := fun t => t.commit addr data) (e := .readResponse addr data) _ lo hi rfl
  | fb addr data lo hi =>
    exact completeFrame_eq (f := fun t => t.commit addr data) (e := .feedback addr data) _ lo hi rfl
  | alarm level type lo hi => exact completeFrame_eq (f := fun t => t) (e := .alarm level type) _ lo hi rfl
  | unknownRx code => rfl

/-- Only a received row has an event. -/
theorem direction_of_frameEvent {i : Instr} {e : Event} (h : frameEvent i = some e) : i.direction = .toHost := by
  cases i with
  | rdReq addr len => cases h
  | wr addr data => cases h
  | rdRsp addr data lo hi => rfl
  | fb addr data lo hi => rfl
  | alarm level type lo hi => rfl
  | unknownRx code => rfl

/-- What an event's frame was: one row with its check bytes right (spec/41_frame_decoder.md R97, R99). -/
theorem frameEvent_cases {i : Instr} {e : Event} (h : frameEvent i = some e) :
    (∃ addr data lo hi, i = .rdRsp addr data lo hi ∧ e = .readResponse addr data ∧
        verdict (dataHeader Config.iRead addr data) lo hi = true) ∨
      (∃ addr data lo hi, i = .fb addr data lo hi ∧ e = .feedback addr data ∧
        verdict (dataHeader Config.iFeedback addr data) lo hi = true) ∨
      ∃ level type, e = .alarm level type := by
  cases i with
  | rdReq addr len => cases h
  | wr addr data => cases h
  | rdRsp addr data lo hi =>
    obtain ⟨hv, ⟨⟩⟩ := Option.ite_none_right_eq_some.mp h
    exact .inl ⟨addr, data, lo, hi, rfl, rfl, hv⟩
  | fb addr data lo hi =>
    obtain ⟨hv, ⟨⟩⟩ := Option.ite_none_right_eq_some.mp h
    exact .inr (.inl ⟨addr, data, lo, hi, rfl, rfl, hv⟩)
  | alarm level type lo hi =>
    obtain ⟨_, ⟨⟩⟩ := Option.ite_none_right_eq_some.mp h
    exact .inr (.inr ⟨level, type, rfl⟩)
  | unknownRx code => cases h

/-! ## One FEED, from any state -/

/-- `s` after a FEED that left the decoder state `d` and returned `e`, writing what `e` says. -/
def State.afterFeed (s : State) (d : Decoder) (e : Option Event) (rest : List Txn) : State :=
  State.emit { s with regMap := eventWrites? s.regMap e, dec := d, todo := rest } (.fed e)

section

variable (s : State) (d : Decoder) (e : Option Event) (rest : List Txn)

@[simp] theorem afterFeed_regMap : (s.afterFeed d e rest).regMap = eventWrites? s.regMap e := rfl
@[simp] theorem afterFeed_dec : (s.afterFeed d e rest).dec = d := rfl
@[simp] theorem afterFeed_regmapInit : (s.afterFeed d e rest).regmapInit = s.regmapInit := rfl
@[simp] theorem afterFeed_todo : (s.afterFeed d e rest).todo = rest := rfl
@[simp] theorem afterFeed_results : (s.afterFeed d e rest).results = s.results ++ [.fed e] := rfl

/-- A FEED that returned `None` has only moved the decoder. -/
theorem afterFeed_none : s.afterFeed d none rest = s.afterQuiet d rest 1 := rfl

end

/-- What received bytes run does not depend on the state. -/
theorem runReceived_uniform (bytes : List Byte) :
    (∀ s, runReceived bytes s = .done (.fault .decoderStateIllFormed)) ∨
      ∃ i : Instr, i.direction = .toHost ∧ ∀ s, runReceived bytes s = .run i s := by
  unfold runReceived
  split
  · rename_i i hd
    exact .inr ⟨i, decode_toHost_direction hd, fun _ => rfl⟩
  · exact .inl fun _ => rfl

/-- What a FEED comes to depends on its byte and the decoder state alone (spec/20_memory.md R43). -/
theorem feed_uniform (b : Byte) (d : Decoder) :
    (∀ s : State, s.dec = d → feed b s = .done (.fault .decoderStateIllFormed)) ∨
      ∃ d' : Decoder, (∀ s : State, s.dec = d → feed b s = quiet d' s) ∨
        ∃ i : Instr, i.direction = .toHost ∧ ∀ s : State, s.dec = d → feed b s = .run i { s with dec := d' } := by
  cases hs : d.synced with
  | false =>
    by_cases hm : d.prev = Config.marker0 ∧ b = Config.marker1
    · refine .inr ⟨{ d with prev := b, synced := true }, .inl ?_⟩
      rintro s rfl
      rw [feed_hunting b hs, feedHunt, if_pos hm]
    · refine .inr ⟨{ d with prev := b }, .inl ?_⟩
      rintro s rfl
      rw [feed_hunting b hs, feedHunt, if_neg hm]
  | true =>
    cases hi : d.instruction with
    | none =>
      by_cases hb : b = Config.iRead ∨ b = Config.iFeedback
      · refine .inr ⟨{ d with prev := b, instruction := some b }, .inl ?_⟩
        rintro s rfl
        rw [feed_instr b hs hi, feedInstr, if_pos hb]
      · by_cases h8 : b = Config.iAlarm
        · refine .inr ⟨{ d with
            prev := b, instruction := some b, expectedLen := some Config.alarmBufLen }, .inl ?_⟩
          rintro s rfl
          rw [feed_instr b hs hi, feedInstr, if_neg hb, if_pos h8]
        · obtain ⟨h3, h5⟩ := not_or.mp hb
          refine .inr ⟨{ d with prev := b }, .inr ⟨.unknownRx b, rfl, ?_⟩⟩
          rintro s rfl
          rw [feed_instr b hs hi, feedInstr_unknown (acceptedCode_eq_false h3 h5 h8)]
    | some c =>
      by_cases he : nextExpected c (d.payloadBuf ++ [b]) d.expectedLen = some (d.payloadBuf ++ [b]).length
      · rcases runReceived_uniform (frameHead c ++ (d.payloadBuf ++ [b])) with hf | ⟨i, hd, hr⟩
        · refine .inl ?_
          rintro s rfl
          rw [feed_payload b hs hi, feedPayload]
          exact (if_pos he).trans (hf _)
        · refine .inr ⟨{ d with
            prev := b, payloadBuf := d.payloadBuf ++ [b]
            expectedLen := nextExpected c (d.payloadBuf ++ [b]) d.expectedLen }, .inr ⟨i, hd, ?_⟩⟩
          rintro s rfl
          rw [feed_payload b hs hi, feedPayload]
          exact (if_pos he).trans (hr _)
      · refine .inr ⟨{ d with
          prev := b, payloadBuf := d.payloadBuf ++ [b]
          expectedLen := nextExpected c (d.payloadBuf ++ [b]) d.expectedLen }, .inl ?_⟩
        rintro s rfl
        rw [feed_payload b hs hi, feedPayload]
        exact if_neg he

/-- A FEED as a step: the same fault, or the same decoder state and the same result, from every state with the same
decoder. -/
theorem step_feed_uniform (b : Byte) (d : Decoder) :
    (∀ (s : State) (rest : List Txn), s.dec = d → s.todo = .feed b :: rest →
        step s = .fault .decoderStateIllFormed) ∨
      ∃ (d' : Decoder) (e : Option Event), ∀ (s : State) (rest : List Txn), s.dec = d → s.todo = .feed b :: rest →
        step s = .next (s.afterFeed d' e rest) := by
  rcases feed_uniform b d with hf | ⟨d', hq | ⟨i, hd, hr⟩⟩
  · exact .inl fun s rest hs ht => by rw [step_feed ht, hf { s with todo := rest } hs, finish_done]
  · exact .inr ⟨d', none, fun s rest hs ht => step_quiet ht (hq _ hs)⟩
  · refine .inr ⟨Decoder.hunting d'.prev, frameEvent i, fun s rest hs ht => ?_⟩
    rw [step_feed ht, hr { s with todo := rest } hs, finish_run, exec_toHost_eq hd]
    rfl

/-- A FEED that goes on. -/
theorem step_feed_next {s t : State} {b : Byte} {rest : List Txn} (ht : s.todo = .feed b :: rest)
    (h : step s = .next t) :
    ∃ d e, t = s.afterFeed d e rest ∧ ∀ (s' : State) (rest' : List Txn), s'.dec = s.dec →
      s'.todo = .feed b :: rest' → step s' = .next (s'.afterFeed d e rest') := by
  rcases step_feed_uniform b s.dec with hf | ⟨d, e, hn⟩
  · rw [hf s rest rfl ht] at h
    cases h
  · rw [hn s rest rfl ht] at h
    cases h
    exact ⟨d, e, rfl, hn⟩

/-! ## Every transaction -/

/-- Everything a step that goes on can have done: nothing, a RESET, a FEED, or one result that is no event and no other
change. -/
theorem step_cases {s t : State} (h : step s = .next t) :
    (s.todo = [] ∧ t = s) ∨
      (∃ rest, s.todo = .reset :: rest ∧ t = State.emit
        { s with todo := rest, regMap := s.regmapInit, dec := Decoder.hunting Config.prevInit } .resetDone) ∨
      (∃ b rest d e, s.todo = .feed b :: rest ∧ t = s.afterFeed d e rest) ∨
      ∃ tx rest r, s.todo = tx :: rest ∧ eventsOf [r] = [] ∧ t = State.emit { s with todo := rest } r := by
  cases ht : s.todo with
  | nil =>
    rw [step_idle ht] at h
    cases h
    exact .inl ⟨rfl, rfl⟩
  | cons tx rest =>
    cases tx with
    | feed b =>
      obtain ⟨d, e, rfl, _⟩ := step_feed_next ht h
      exact .inr (.inr (.inl ⟨b, rest, d, e, rfl, rfl⟩))
    | reset =>
      rw [step_reset ht] at h
      cases h
      exact .inr (.inl ⟨rest, rfl, rfl⟩)
    | regRead a =>
      rw [step_regRead ht] at h
      cases h
      exact .inr (.inr (.inr ⟨_, rest, _, rfl, eventsOf_value _ _, rfl⟩))
    | crc16 m =>
      rw [step_crc16 ht] at h
      cases h
      exact .inr (.inr (.inr ⟨_, rest, _, rfl, eventsOf_crc _ _, rfl⟩))
    | buildRead addr len =>
      rw [step_buildRead ht] at h
      cases h
      exact .inr (.inr (.inr ⟨_, rest, _, rfl, eventsOf_frame _ _, rfl⟩))
    | buildWrite addr data =>
      rw [step_buildWrite ht] at h
      split at h
      · cases h
        exact .inr (.inr (.inr ⟨_, rest, _, rfl, eventsOf_frame _ _, rfl⟩))
      · cases h

/-- A step without a RESET writes the events it returns, in order, and nothing else (spec/10_state.md R12). -/
theorem step_regMap_of_not_reset {s t : State} (h : step s = .next t) (hr : ∀ rest, s.todo ≠ .reset :: rest) :
    t.todo = s.todo.tail ∧ t.regmapInit = s.regmapInit ∧
      ∃ rs, t.results = s.results ++ rs ∧ t.regMap = (eventsOf rs).foldl eventWrites s.regMap := by
  rcases step_cases h with ⟨ht, rfl⟩ | ⟨rest, ht, rfl⟩ | ⟨b, rest, d, e, ht, rfl⟩ | ⟨tx, rest, r, ht, hev, rfl⟩
  · exact ⟨by rw [ht, List.tail_nil], rfl, [], by simp, rfl⟩
  · exact absurd ht (hr rest)
  · refine ⟨by rw [ht]; rfl, rfl, [.fed e], rfl, ?_⟩
    cases e <;> rfl
  · exact ⟨by rw [ht]; rfl, rfl, [r], rfl, by rw [hev]; rfl⟩

/-! ## One FEED, from a legal state -/

/-- A FEED from a legal decoder state goes on, with its byte in `prev`. It returns `None` and leaves a legal decoder
state, or completes a frame and leaves the decoder hunting (spec/41_frame_decoder.md R105). -/
theorem step_feed_legal {s : State} {b : Byte} {rest : List Txn} (hw : s.dec.wf = true)
    (ht : s.todo = .feed b :: rest) :
    (∃ d, d.prev = b ∧ d.wf = true ∧ step s = .next (s.afterFeed d none rest)) ∨
      ∃ c i, s.dec.instruction = some c ∧ s.dec.expectedLen = some (s.dec.payloadBuf.length + 1) ∧
        decode .toHost (frameHead c ++ (s.dec.payloadBuf ++ [b])) = .ok (i, []) ∧
        step s = .next (s.afterFeed (Decoder.hunting b) (frameEvent i) rest) := by
  rcases feed_cases (s := { s with todo := rest }) b hw with
    ⟨d, hp, hd, hf⟩ | ⟨d, i, rfl, hdir, hf, _, ⟨_, rfl⟩ | ⟨c, hc, he, hdec⟩⟩
  · exact .inl ⟨d, hp, hd, step_quiet ht hf⟩
  · refine .inl ⟨Decoder.hunting d.prev, rfl, wf_hunting _, ?_⟩
    rw [step_feed ht, hf]
    rfl
  · refine .inr ⟨c, i, hc, he, hdec, ?_⟩
    rw [step_feed ht, hf, finish_run, exec_toHost_eq hdir]
    rfl

/-! ## Runs and stops -/

/-- A run without a RESET writes the events it returns, in order, and nothing else (spec/70_reset_and_hazards.md R131,
R132): every step of it does. -/
theorem runs_regMap_of_no_reset {k : Nat} {s t : State} (hr : Txn.reset ∉ s.todo.take k) (h : runs k s = .next t) :
    t.regmapInit = s.regmapInit ∧
      ∃ rs, t.results = s.results ++ rs ∧ t.regMap = (eventsOf rs).foldl eventWrites s.regMap := by
  induction k generalizing s with
  | zero =>
    rw [runs_zero] at h
    cases h
    exact ⟨rfl, [], (List.append_nil _).symm, rfl⟩
  | succ k ih =>
    rw [runs_succ] at h
    split at h
    · rename_i u hu
      obtain ⟨htail, hinit, rs, hres, hmap⟩ := step_regMap_of_not_reset hu fun rest ht => hr (by rw [ht]; simp)
      have hr' : Txn.reset ∉ u.todo.take k := by
        rw [htail]
        cases ht : s.todo with
        | nil => simp
        | cons tx rest =>
          rw [ht, List.take_succ_cons] at hr
          exact List.not_mem_of_not_mem_cons hr
      obtain ⟨hinit', rs', hres', hmap'⟩ := ih hr' h
      refine ⟨hinit'.trans hinit, rs ++ rs', by rw [hres', hres, List.append_assoc], ?_⟩
      rw [hmap', hmap, eventsOf_append, List.foldl_append]
    · cases h
    · cases h

/-- A step from a legal decoder state goes on, or is refused at a BUILD_WRITE of more than 255 data bytes. -/
theorem step_legal_cases {s : State} (hw : s.dec.wf = true) :
    (∃ t, step s = .next t) ∨ step s = .refused .writeTooLong ∧
      ∃ addr data rest, s.todo = .buildWrite addr data :: rest ∧ 255 < data.length := by
  cases ht : s.todo with
  | nil => exact .inl ⟨_, step_idle ht⟩
  | cons tx rest =>
    cases tx with
    | feed b =>
      rcases step_feed_legal hw ht with ⟨_, _, _, h⟩ | ⟨_, _, _, _, _, h⟩
      · exact .inl ⟨_, h⟩
      · exact .inl ⟨_, h⟩
    | regRead a => exact .inl ⟨_, step_regRead ht⟩
    | crc16 m => exact .inl ⟨_, step_crc16 ht⟩
    | buildRead addr len => exact .inl ⟨_, step_buildRead ht⟩
    | buildWrite addr data =>
      by_cases hl : data.length ≤ Config.maxData
      · exact .inl ⟨_, (step_buildWrite ht).trans (if_pos hl)⟩
      · exact .inr ⟨(step_buildWrite ht).trans (if_neg hl), addr, data, rest, rfl, Nat.lt_of_not_le hl⟩
    | reset => exact .inl ⟨_, step_reset ht⟩

end Sys2Proof.Machine

/-!
PROOF. The statements about a single transaction and about runs of transactions (spec/10_state.md, spec/20_memory.md
section 5, spec/60_exceptions.md).
-/

namespace Sys2Proof

open Machine

/-- Settles O31. -/
theorem onlyFeedAndResetChangeTheDecoder : Obligations.OnlyFeedAndResetChangeTheDecoder := by
  intro s t tx rest ht h hne
  rcases step_dec_cases h with hkept | ⟨rest', hreset, _⟩ | ⟨b, rest', hfeed⟩
  · exact absurd hkept hne
  · exact .inl (List.cons.inj (ht.symm.trans hreset)).1
  · exact .inr ⟨b, (List.cons.inj (ht.symm.trans hfeed)).1⟩

/-- Settles O34: a FEED depends on its byte and the decoder state alone. -/
theorem feedIgnoresTheRegisterMap : Obligations.FeedIgnoresTheRegisterMap := by
  intro s t m b rest ht h
  obtain ⟨d, e, rfl, huniform⟩ := step_feed_next ht h
  exact ⟨eventWrites? m e, huniform { s with regMap := m } rest rfl ht⟩

/-- Settles O35: transaction by transaction, the step reads neither the queue after it nor the results before it. -/
theorem transactionsAreSequentialAndMemoryless : Obligations.TransactionsAreSequentialAndMemoryless := by
  intro s t tx rest ht h
  cases tx with
  | feed b =>
    obtain ⟨d, e, rfl, huniform⟩ := step_feed_next ht h
    exact ⟨.fed e, rfl, rfl, rfl, fun later earlier =>
      huniform { s with todo := .feed b :: later, results := earlier } later rfl rfl⟩
  | regRead a =>
    rw [step_regRead ht] at h
    cases h
    exact ⟨_, rfl, rfl, rfl, fun _ _ => step_regRead rfl⟩
  | crc16 m =>
    rw [step_crc16 ht] at h
    cases h
    exact ⟨_, rfl, rfl, rfl, fun _ _ => step_crc16 rfl⟩
  | buildRead addr len =>
    rw [step_buildRead ht] at h
    cases h
    exact ⟨_, rfl, rfl, rfl, fun _ _ => step_buildRead rfl⟩
  | buildWrite addr data =>
    rw [step_buildWrite ht] at h
    split at h
    · rename_i hl
      cases h
      exact ⟨_, rfl, rfl, rfl, fun _ _ => (step_buildWrite rfl).trans (if_pos hl)⟩
    · cases h
  | reset =>
    rw [step_reset ht] at h
    cases h
    exact ⟨_, rfl, rfl, rfl, fun _ _ => step_reset rfl⟩

/-- Settles O54. -/
theorem registerMapPersistsUntilReset : Obligations.RegisterMapPersistsUntilReset := by
  intro k s t hr h
  obtain ⟨hinit, rs, hres, hmap⟩ := runs_regMap_of_no_reset hr h
  exact ⟨hinit, by rw [hres, List.drop_left, hmap]⟩

/-- Settles O28. -/
theorem feedIsTotal : Obligations.FeedIsTotal := by
  intro s b rest hinv ht
  obtain ⟨_, _, hw⟩ := (inv_iff s).mp hinv
  rcases step_feed_legal hw ht with ⟨d, _, _, h⟩ | ⟨_, i, _, _, _, h⟩
  · exact ⟨_, none, h, rfl, rfl, fun hne => absurd rfl hne⟩
  · exact ⟨_, frameEvent i, h, rfl, rfl, fun _ => rfl⟩

/-- Settles O29. -/
theorem onlyLongWritesStop : Obligations.OnlyLongWritesStop := by
  intro s hinv
  obtain ⟨_, _, hw⟩ := (inv_iff s).mp hinv
  rcases step_legal_cases hw with ⟨t, h⟩ | ⟨h, hlong⟩
  · rw [h]
    exact ⟨fun _ => nofun, nofun⟩
  · rw [h]
    exact ⟨fun _ => nofun, fun r hr => ⟨(Host.Outcome.refused.inj hr).symm, hlong⟩⟩

/-- Settles O26. -/
theorem crcTransactionReturnsTheCrc : Obligations.CrcTransactionReturnsTheCrc := by
  intro s m rest ht
  rw [step_crc16 ht, crc16_eq_reflect, State.emit]

/-- Settles O27. -/
theorem idleStepHoldsTheState : Obligations.IdleStepHoldsTheState := fun _ ht => step_idle ht

end Sys2Proof

/-!
PROOF. The invariant of spec/10_state.md R25, and what it says about a change of the Register Map (R12).
-/

namespace Sys2Proof.Machine

/-- What an event writes keeps the canonical form. -/
theorem wf_eventWrites? {m : Memory} (h : m.wf = true) (e : Option Event) : (eventWrites? m e).wf = true := by
  cases e with
  | none => exact h
  | some e =>
    cases e with
    | readResponse addr data => exact Memory.wf_memWrite h
    | feedback addr data => exact Memory.wf_memWrite h
    | alarm level type => exact h

/-- Every step keeps both maps in canonical form. -/
theorem step_maps_wf {s t : State} (hm : s.regMap.wf = true) (hi : s.regmapInit.wf = true) (h : step s = .next t) :
    t.regMap.wf = true ∧ t.regmapInit.wf = true := by
  rcases step_cases h with ⟨_, rfl⟩ | ⟨_, _, rfl⟩ | ⟨_, _, _, e, _, rfl⟩ | ⟨_, _, _, _, _, rfl⟩
  · exact ⟨hm, hi⟩
  · exact ⟨hi, hi⟩
  · exact ⟨wf_eventWrites? hm e, hi⟩
  · exact ⟨hm, hi⟩

/-- The state after reset is legal where `REGMAP_INIT` is in canonical form. -/
theorem resetWith_inv {init : Memory} (h : init.wf = true) : (State.resetWith init).inv = true :=
  (inv_iff _).mpr ⟨h, h, wf_hunting _⟩

/-- The bytes of an accepted instruction decide its row: the code is that of the row. -/
theorem code_of_frameHead_eq_encode {c : Byte} {bytes : List Byte} {i : Instr}
    (h : frameHead c ++ bytes = encode i) : (encode i).getD 2 0 = c := by
  rw [← h]
  rfl

/-- A received frame that writes the Register Map: its code is that of its event, and the CRC of all its bytes is zero
(spec/41_frame_decoder.md R97, R98, spec/40_crc16.md R78). -/
theorem frameEvent_write_cases {i : Instr} {e : Event} {m : Memory} (he : frameEvent i = some e)
    (hne : eventWrites m e ≠ m) :
    crc16 (encode i) = 0#16 ∧ ∃ addr data, eventWrites m e = memWrite m addr.toNat data ∧
      (((encode i).getD 2 0 = 0x03 ∧ e = .readResponse addr data) ∨
        ((encode i).getD 2 0 = 0x05 ∧ e = .feedback addr data)) := by
  rcases frameEvent_cases he with ⟨addr, data, lo, hi, rfl, rfl, hv⟩ | ⟨addr, data, lo, hi, rfl, rfl, hv⟩ |
    ⟨level, type, rfl⟩
  · exact ⟨verdict_iff_crc16_eq_zero.mp hv, addr, data, rfl, .inl ⟨rfl, rfl⟩⟩
  · exact ⟨verdict_iff_crc16_eq_zero.mp hv, addr, data, rfl, .inr ⟨rfl, rfl⟩⟩
  · exact absurd rfl hne

end Sys2Proof.Machine

namespace Sys2Proof

open Machine

/-- Settles O38. -/
theorem resetStateIsLegal : Obligations.ResetStateIsLegal := ⟨resetWith_inv rfl, fun _ => resetWith_inv⟩

/-- Settles O39: the decoder's invariants and the canonical form of the maps, each kept by every step. -/
theorem everyStepKeepsTheInvariant : Obligations.EveryStepKeepsTheInvariant := by
  intro s t hinv h
  obtain ⟨hm, hi, hw⟩ := (inv_iff s).mp hinv
  obtain ⟨hm', hi'⟩ := step_maps_wf hm hi h
  exact (inv_iff t).mpr ⟨hm', hi', step_dec_wf hw h⟩

/-- Settles O32: the FEED that changes the map has completed a frame, whose event says what it wrote; the bytes received
are that frame's encoding, so their CRC is zero. -/
theorem registerMapChangesOnlyByValidFrames : Obligations.RegisterMapChangesOnlyByValidFrames := by
  intro s t hinv h hne
  obtain ⟨_, _, hw⟩ := (inv_iff s).mp hinv
  rcases step_cases h with ⟨_, rfl⟩ | ⟨rest, ht, rfl⟩ | ⟨b, rest, _, _, ht, _⟩ | ⟨_, _, _, _, _, rfl⟩
  · exact absurd rfl hne
  · exact .inl ⟨rest, ht, rfl⟩
  · rcases step_feed_legal hw ht with ⟨d, _, _, hq⟩ | ⟨c, i, hc, hexp, hdec, hrun⟩
    · rw [hq] at h
      cases h
      exact absurd rfl hne
    · rw [hrun] at h
      cases h
      obtain ⟨_, _, hbytes⟩ := encodeInvertsReceiveDecode _ _ _ hdec
      rw [List.append_nil] at hbytes
      have hcode := code_of_frameHead_eq_encode hbytes
      cases he : frameEvent i with
      | none =>
        rw [he] at hne
        exact absurd rfl hne
      | some e =>
        rw [he] at hne
        obtain ⟨hcrc, addr, data, hmap, hrow⟩ := frameEvent_write_cases he hne
        rw [← hbytes] at hcrc
        rw [hcode] at hrow
        refine .inr ⟨b, rest, c, addr, data, ht, hc, hrow.imp And.left And.left, hexp, ?_, hmap, ?_⟩
        · rwa [List.append_assoc]
        · rcases hrow with ⟨rfl, rfl⟩ | ⟨rfl, rfl⟩
          · rfl
          · rfl
  · exact absurd rfl hne

end Sys2Proof

/-!
PROOF. The phases of the decoder (spec/10_state.md R20), the payload byte that completes a frame, and how long a frame
attempt can last (spec/41_frame_decoder.md R92 to R105).
-/

namespace Sys2Proof.Machine

/-! ## Phases -/

theorem phase_of_not_synced {d : Decoder} (h : d.synced = false) : phase d = .hunt := if_pos h

theorem phase_of_instruction_none {d : Decoder} (hs : d.synced = true) (hi : d.instruction = none) :
    phase d = .instr := by simp [phase, hs, hi]

theorem phase_of_alarm {d : Decoder} (hs : d.synced = true) (hi : d.instruction = some 8#8) : phase d = .alarm := by
  simp [phase, hs, hi, Config.iAlarm]

theorem phase_of_data {d : Decoder} {c : Byte} (hs : d.synced = true) (hi : d.instruction = some c)
    (hc : c = 3#8 ∨ c = 5#8) : phase d = if d.payloadBuf.length < 2 then .head else .body := by
  rcases hc with rfl | rfl
  · simp [phase, hs, hi, Config.iAlarm]
  · simp [phase, hs, hi, Config.iAlarm]

/-- A legal decoder state is in one of the five phases. -/
theorem phase_cases {d : Decoder} (hw : d.wf = true) :
    (d.synced = false ∧ phase d = .hunt) ∨
      (d.synced = true ∧ d.instruction = none ∧ phase d = .instr) ∨
      (d.instruction = some 8#8 ∧ phase d = .alarm) ∨
      ∃ c, (c = 3#8 ∨ c = 5#8) ∧ d.instruction = some c ∧
        ((d.payloadBuf.length < 2 ∧ phase d = .head) ∨ (2 ≤ d.payloadBuf.length ∧ phase d = .body)) := by
  cases hs : d.synced with
  | false => exact .inl ⟨rfl, phase_of_not_synced hs⟩
  | true =>
    cases hi : d.instruction with
    | none => exact .inr (.inl ⟨rfl, rfl, phase_of_instruction_none hs hi⟩)
    | some c =>
      obtain ⟨_, hc, _⟩ := wf_some hw hi
      rcases or_assoc.mpr hc with hc | rfl
      · refine .inr (.inr (.inr ⟨c, hc, rfl, ?_⟩))
        rw [phase_of_data hs hi hc]
        by_cases hl : d.payloadBuf.length < 2
        · exact .inl ⟨hl, if_pos hl⟩
        · exact .inr ⟨Nat.le_of_not_lt hl, if_neg hl⟩
      · exact .inr (.inr (.inl ⟨rfl, phase_of_alarm hs hi⟩))

/-! ## One payload byte -/

/-- The decoder state after a payload byte that does not complete the frame (spec/41_frame_decoder.md R90 to R93). -/
def Decoder.buffering (d : Decoder) (c b : Byte) : Decoder :=
  { d with
    prev := b, payloadBuf := d.payloadBuf ++ [b]
    expectedLen := expectedLenOf (some c) (d.payloadBuf ++ [b]) }

@[simp] theorem buffering_synced (d : Decoder) (c b : Byte) : (d.buffering c b).synced = d.synced := rfl
@[simp] theorem buffering_instruction (d : Decoder) (c b : Byte) : (d.buffering c b).instruction = d.instruction := rfl
@[simp] theorem buffering_length (d : Decoder) (c b : Byte) :
    (d.buffering c b).payloadBuf.length = d.payloadBuf.length + 1 := by simp [Decoder.buffering]

/-- In a legal state the byte to come completes the frame exactly if `expectedLen` says so before it arrives: `len`
never completes a frame. -/
theorem expectedLenOf_snoc_complete_iff {d : Decoder} {c : Byte} (b : Byte) (hw : d.wf = true)
    (hi : d.instruction = some c) :
    expectedLenOf (some c) (d.payloadBuf ++ [b]) = some (d.payloadBuf.length + 1) ↔
      d.expectedLen = some (d.payloadBuf.length + 1) := by
  obtain ⟨_, hc, he, _⟩ := wf_some hw hi
  rw [expectedLenOf_snoc hc, he]
  by_cases h : c ≠ 8#8 ∧ d.payloadBuf.length = 1
  · obtain ⟨h8, hl⟩ := h
    have hdata : c = 3#8 ∨ c = 5#8 := (or_assoc.mpr hc).resolve_right h8
    rw [if_pos ⟨h8, hl⟩, expectedLenOf_head hdata (by omega), hl, Option.some.injEq]
    exact ⟨fun h => absurd h (by omega), nofun⟩
  · rw [if_neg h]

/-- A payload byte from a legal decoder state is buffered, or completes the frame as `expectedLen` says; then the
decoder hunts. -/
theorem step_feed_payload {s : State} {b c : Byte} {rest : List Txn} (hw : s.dec.wf = true)
    (hi : s.dec.instruction = some c) (ht : s.todo = .feed b :: rest) :
    (s.dec.expectedLen ≠ some (s.dec.payloadBuf.length + 1) ∧
        step s = .next (s.afterQuiet (s.dec.buffering c b) rest 1)) ∨
      (s.dec.expectedLen = some (s.dec.payloadBuf.length + 1) ∧
        ∃ e, step s = .next (s.afterFeed (Decoder.hunting b) e rest)) := by
  by_cases he : s.dec.expectedLen = some (s.dec.payloadBuf.length + 1)
  · have hx := (expectedLenOf_snoc_complete_iff b hw hi).mpr he
    rcases feedPayload_cases (s := { s with todo := rest }) b hw hi with ⟨hne, _⟩ | ⟨_, _, i, hd, hf⟩
    · exact absurd (hx.trans (by simp)) hne
    · refine .inr ⟨he, frameEvent i, ?_⟩
      rw [step_feed ht, hf, finish_run, exec_toHost_eq (decode_toHost_direction hd)]
      rfl
  · exact .inl ⟨he, step_feed_buffered hw hi ht fun hx => he ((expectedLenOf_snoc_complete_iff b hw hi).mp hx)⟩

/-! ## The rows of the phase table (spec/41_frame_decoder.md R104) -/

section

variable {s t : State} {b c : Byte} {rest : List Txn}

theorem phase_after_hunt (hw : s.dec.wf = true) (hs : s.dec.synced = false) (ht : s.todo = .feed b :: rest)
    (h : step s = .next t) : phase t.dec = if s.dec.prev = 0xAA ∧ b = 0x77 then .instr else .hunt := by
  rw [step_feed_hunting hs ht] at h
  cases h
  have hnone : s.dec.instruction = none := by
    rw [eq_hunting_of_wf hw hs]
    rfl
  by_cases hm : s.dec.prev = 0xAA ∧ b = 0x77
  · rw [if_pos hm]
    exact phase_of_instruction_none (decide_eq_true hm) hnone
  · rw [if_neg hm]
    exact phase_of_not_synced (decide_eq_false hm)

theorem phase_after_instr (hw : s.dec.wf = true) (hs : s.dec.synced = true) (hi : s.dec.instruction = none)
    (ht : s.todo = .feed b :: rest) (h : step s = .next t) :
    phase t.dec = if b = 3#8 ∨ b = 5#8 then .head else if b = 8#8 then .alarm else .hunt := by
  obtain ⟨hbuf, _⟩ := wf_none hw hi
  rcases step_feed_instr hs hi ht with ⟨hc, hn⟩ | ⟨rfl, hn⟩ | ⟨h3, h5, h8, hn⟩
  · rw [hn] at h
    cases h
    rw [if_pos hc]
    exact (phase_of_data (d := { s.dec with prev := b, instruction := some b }) hs rfl hc).trans
      (if_pos (by rw [hbuf]; decide))
  · rw [hn] at h
    cases h
    exact phase_of_alarm hs rfl
  · rw [hn] at h
    cases h
    rw [if_neg (not_or.mpr ⟨h3, h5⟩), if_neg h8]
    exact phase_of_not_synced rfl

/-- The two bytes of HEAD are `addr` and `len`; neither completes the frame. -/
theorem phase_after_head (hw : s.dec.wf = true) (hc : c = 3#8 ∨ c = 5#8) (hi : s.dec.instruction = some c)
    (hl : s.dec.payloadBuf.length < 2) (ht : s.todo = .feed b :: rest) (h : step s = .next t) :
    phase t.dec = if s.dec.payloadBuf.length = 0 then .head else .body := by
  obtain ⟨hs, _, he, _⟩ := wf_some hw hi
  rw [expectedLenOf_head hc hl] at he
  rcases step_feed_payload hw hi ht with ⟨_, hn⟩ | ⟨heq, _⟩
  · rw [hn] at h
    cases h
    rw [afterQuiet_dec, phase_of_data (d := s.dec.buffering c b) hs hi hc, buffering_length]
    exact if_congr (by omega) rfl rfl
  · rw [he] at heq
    cases heq

theorem phase_after_body (hw : s.dec.wf = true) (hc : c = 3#8 ∨ c = 5#8) (hi : s.dec.instruction = some c)
    (hl : 2 ≤ s.dec.payloadBuf.length) (ht : s.todo = .feed b :: rest) (h : step s = .next t) :
    phase t.dec = if s.dec.expectedLen = some (s.dec.payloadBuf.length + 1) then .hunt else .body := by
  obtain ⟨hs, _⟩ := wf_some hw hi
  rcases step_feed_payload hw hi ht with ⟨hne, hn⟩ | ⟨heq, e, hn⟩
  · rw [hn] at h
    cases h
    rw [if_neg hne, afterQuiet_dec, phase_of_data (d := s.dec.buffering c b) hs hi hc, buffering_length]
    exact if_neg (by omega)
  · rw [hn] at h
    cases h
    rw [if_pos heq]
    exact phase_of_not_synced rfl

/-- An alarm frame is complete at its fourth payload byte. -/
theorem phase_after_alarm (hw : s.dec.wf = true) (hi : s.dec.instruction = some 8#8)
    (ht : s.todo = .feed b :: rest) (h : step s = .next t) :
    phase t.dec = if s.dec.payloadBuf.length < 3 then .alarm else .hunt := by
  obtain ⟨hs, _, he, hlt, _⟩ := wf_some hw hi
  rw [expectedLenOf_alarm] at he
  have hbelow := hlt 4 he
  rcases step_feed_payload hw hi ht with ⟨hne, hn⟩ | ⟨heq, e, hn⟩
  · rw [hn] at h
    cases h
    rw [he, ne_eq, Option.some.injEq] at hne
    rw [if_pos (by omega)]
    exact phase_of_alarm hs hi
  · rw [hn] at h
    cases h
    rw [he, Option.some.injEq] at heq
    rw [if_neg (by omega)]
    exact phase_of_not_synced rfl

end

/-! ## The end of a frame attempt -/

/-- With an instruction held, the decoder hunts again after as many bytes as the buffer has room for, or fewer: every
byte that does not complete the frame makes the buffer longer. -/
theorem runs_payload_ends {n : Nat} {s : State} {c : Byte} {bytes : List Byte} {rest : List Txn}
    (hw : s.dec.wf = true) (hi : s.dec.instruction = some c) (hroom : 259 ≤ s.dec.payloadBuf.length + n)
    (hn : n ≤ bytes.length) (ht : s.todo = feeds bytes ++ rest) :
    ∃ k t, 1 ≤ k ∧ k ≤ n ∧ runs k s = .next t ∧ t.dec.synced = false := by
  induction n generalizing s bytes with
  | zero =>
    obtain ⟨_, _, _, _, hlen⟩ := wf_some hw hi
    omega
  | succ n ih =>
    cases bytes with
    | nil => exact absurd hn (Nat.not_succ_le_zero n)
    | cons b bytes =>
      rcases step_feed_payload (rest := feeds bytes ++ rest) hw hi ht with ⟨_, h⟩ | ⟨_, e, h⟩
      · have hwd : (s.dec.buffering c b).wf = true := step_dec_wf hw h
        obtain ⟨k, t, h1, hk, hrun, hhunt⟩ := ih (s := s.afterQuiet (s.dec.buffering c b) (feeds bytes ++ rest) 1)
          hwd hi (by rw [afterQuiet_dec, buffering_length]; omega) (Nat.le_of_succ_le_succ hn) rfl
        exact ⟨k + 1, t, by omega, by omega, by rw [runs_succ_of_next h, hrun], hhunt⟩
      · exact ⟨1, _, Nat.le_refl 1, by omega, by rw [runs_one, h], rfl⟩

end Sys2Proof.Machine

/-!
PROOF. The statements about the decoder's phases and about the end of a frame (spec/41_frame_decoder.md R104, R105,
spec/70_reset_and_hazards.md R131).
-/

namespace Sys2Proof

open Machine

/-- Settles O37: each phase has its row, and the rows of the other phases are empty. -/
theorem phaseMovesAsTabulated : Obligations.PhaseMovesAsTabulated := by
  intro s t b rest hinv ht h
  obtain ⟨_, _, hw⟩ := (inv_iff s).mp hinv
  rcases phase_cases hw with ⟨hs, hp⟩ | ⟨hs, hi, hp⟩ | ⟨hi, hp⟩ | ⟨c, hc, hi, ⟨hl, hp⟩ | ⟨hl, hp⟩⟩
  · rw [hp]
    exact ⟨fun _ => phase_after_hunt hw hs ht h, nofun, nofun, nofun, nofun⟩
  · rw [hp]
    exact ⟨nofun, fun _ => phase_after_instr hw hs hi ht h, nofun, nofun, nofun⟩
  · rw [hp]
    exact ⟨nofun, nofun, nofun, nofun, fun _ => phase_after_alarm hw hi ht h⟩
  · rw [hp]
    exact ⟨nofun, nofun, fun _ => phase_after_head hw hc hi hl ht h, nofun, nofun⟩
  · rw [hp]
    exact ⟨nofun, nofun, nofun, fun _ => phase_after_body hw hc hi hl ht h, nofun⟩

/-- Settles O48: one byte to be dispatched, then at most 259 payload bytes. -/
theorem everyFrameAttemptEnds : Obligations.EveryFrameAttemptEnds := by
  intro s bytes rest hinv hs hbytes ht
  obtain ⟨_, _, hw⟩ := (inv_iff s).mp hinv
  cases hi : s.dec.instruction with
  | some c =>
    obtain ⟨k, t, h1, hk, hrun⟩ := runs_payload_ends hw hi (Nat.le_add_left 259 _) (by omega) ht
    exact ⟨k, t, h1, by omega, hrun⟩
  | none =>
    cases bytes with
    | nil => exact absurd hbytes (by decide)
    | cons b bytes =>
      obtain ⟨d, hd, hstep⟩ : ∃ d, (d.synced = false ∨ ∃ c, d.instruction = some c) ∧
          step s = .next (s.afterQuiet d (feeds bytes ++ rest) 1) := by
        rcases step_feed_instr hs hi ht with ⟨_, h⟩ | ⟨_, h⟩ | ⟨_, _, _, h⟩
        · exact ⟨_, .inr ⟨b, rfl⟩, h⟩
        · exact ⟨_, .inr ⟨b, rfl⟩, h⟩
        · exact ⟨_, .inl rfl, h⟩
      rcases hd with hhunt | ⟨c, hc⟩
      · exact ⟨1, _, Nat.le_refl 1, by omega, by rw [runs_one, hstep], hhunt⟩
      · obtain ⟨k, t, _, hk, hrun, hhunt⟩ :=
          runs_payload_ends (n := 259) (s := s.afterQuiet d (feeds bytes ++ rest) 1) (step_dec_wf hw hstep) hc
            (Nat.le_add_left 259 _) (Nat.le_of_succ_le_succ hbytes) rfl
        exact ⟨k + 1, t, by omega, by omega, by rw [runs_succ_of_next hstep, hrun], hhunt⟩

/-- Settles O53: on `exec` and on `step`. -/
theorem everyFrameEndResetsTheDecoder : Obligations.EveryFrameEndResetsTheDecoder := by
  refine ⟨fun i s hd => ⟨_, exec_toHost_eq hd s, rfl⟩, fun s b rest hinv ht hs hend => ?_⟩
  obtain ⟨_, _, hw⟩ := (inv_iff s).mp hinv
  rcases hend with ⟨hi, h3, h5, h8⟩ | he
  · rcases step_feed_instr hs hi ht with ⟨hc, _⟩ | ⟨hc, _⟩ | ⟨_, _, _, h⟩
    · exact absurd hc (not_or.mpr ⟨h3, h5⟩)
    · exact absurd hc h8
    · exact ⟨_, h, rfl⟩
  · cases hi : s.dec.instruction with
    | none =>
      rw [(wf_none hw hi).2] at he
      cases he
    | some c =>
      rcases step_feed_payload hw hi ht with ⟨hne, _⟩ | ⟨_, e, h⟩
      · exact absurd he hne
      · exact ⟨_, h, rfl⟩

end Sys2Proof

/-!
PROOF. Received bytes that decode to an instruction run it: one byte short of the frame, over the bytes of a whole frame
from hunting, and after bytes without a marker (spec/41_frame_decoder.md R81, R94, R102, spec/70_reset_and_hazards.md
R136).
-/

namespace Sys2Proof.Machine

/-! ## The byte that completes an instruction -/

/-- Bytes after an instruction byte that are the rest of a received row are a complete payload. -/
theorem expectedLenOf_of_encode {i : Instr} {c : Byte} {bytes : List Byte} (hw : i.wf = true)
    (hd : i.direction = .toHost) (hne : bytes ≠ []) (h : frameHead c ++ bytes = encode i) :
    (c = 3#8 ∨ c = 5#8 ∨ c = 8#8) ∧ expectedLenOf (some c) bytes = some bytes.length := by
  rcases encode_toHost_cases hw hd with ⟨code, _, rfl⟩ | ⟨c', bytes', hc, henc, he⟩
  · have hlen := congrArg List.length h
    exact absurd (List.eq_nil_of_length_eq_zero (by simpa [frameHead, encode] using hlen)) hne
  · rw [henc] at h
    obtain ⟨hcode, rfl⟩ : c = c' ∧ bytes = bytes' := by simpa [frameHead] using h
    subst hcode
    exact ⟨hc, he⟩

/-- The FEED after which the received bytes decode to an instruction runs it, its byte in `prev` and in the buffer
(spec/41_frame_decoder.md R94). -/
theorem step_feed_decoded {s : State} {b c : Byte} {rest : List Txn} {i : Instr} (hw : s.dec.wf = true)
    (hi : s.dec.instruction = some c) (ht : s.todo = .feed b :: rest)
    (hd : decode .toHost (frameHead c ++ (s.dec.payloadBuf ++ [b])) = .ok (i, [])) :
    step s = exec i { s with
      todo := rest, dec := { s.dec with prev := b, payloadBuf := s.dec.payloadBuf ++ [b] } } := by
  obtain ⟨hiw, hdir, hbytes⟩ := encodeInvertsReceiveDecode _ _ _ hd
  rw [List.append_nil] at hbytes
  obtain ⟨_, he⟩ := expectedLenOf_of_encode hiw hdir (by simp) hbytes
  rcases feedPayload_cases (s := { s with todo := rest }) b hw hi with ⟨hne, _⟩ | ⟨_, hexp, j, hdj, hf⟩
  · exact absurd he hne
  · obtain rfl : i = j := by simpa using hd.symm.trans hdj
    have hsame : expectedLenOf (some c) (s.dec.payloadBuf ++ [b]) = s.dec.expectedLen := he.trans hexp.symm
    rw [step_feed ht, hf, finish_run]
    simp only [hsame]

/-- The FEED of an unknown instruction's byte runs it (spec/41_frame_decoder.md R89). -/
theorem step_feed_unknown {s : State} {b : Byte} {rest : List Txn} (hs : s.dec.synced = true)
    (hi : s.dec.instruction = none) (hb : acceptedCode b = false) (ht : s.todo = .feed b :: rest) :
    step s = exec (.unknownRx b) { s with todo := rest, dec := { s.dec with prev := b } } := by
  rw [step_feed ht, feed_instr b (by exact hs) (by exact hi), feedInstr_unknown hb, finish_run]

/-- The marker and one byte are a whole instruction exactly if the byte is an unknown one (spec/30_encoding.md R57). -/
theorem decode_code_cases {b : Byte} {i : Instr} (h : decode .toHost (frameHead b) = .ok (i, [])) :
    acceptedCode b = false ∧ i = .unknownRx b := by
  obtain ⟨hw, hdir, hbytes⟩ := encodeInvertsReceiveDecode _ _ _ h
  rw [List.append_nil] at hbytes
  rcases encode_toHost_cases hw hdir with ⟨code, hcode, rfl⟩ | ⟨c, bytes, _, henc, he⟩
  · obtain rfl : b = code := by simpa [encode, frameHead] using hbytes
    exact ⟨hcode, rfl⟩
  · obtain ⟨_, rfl⟩ : b = c ∧ bytes = [] := by simpa [frameHead] using hbytes.trans henc
    exact absurd (expectedLenOf_le he).1 (by decide)

/-! ## Placing an instruction -/

/-- The decoder of `awaiting` for a data row is legal. -/
theorem wf_dataBuffer {c : Byte} (hc : c = 3#8 ∨ c = 5#8) {data : List Byte} (hl : data.length ≤ 255)
    (addr lo p : Byte) :
    Decoder.wf { synced := true, instruction := some c, payloadBuf := addr :: lenByte data :: data ++ [lo],
                 expectedLen := some (data.length + Config.dataBufExtra), prev := p } = true := by
  refine (wf_iff _).mpr ⟨.inr rfl, .inr nofun, fun c' hc' => ?_, ?_, fun e he => ?_, ?_⟩
  · obtain rfl := Option.some.inj hc'
    exact hc.imp_right .inl
  · rw [List.cons_append, List.cons_append, expectedLenOf_data hc, toNat_lenByte hl]
  · obtain rfl := Option.some.inj he
    simp [Config.dataBufExtra]
  · simp only [List.length_append, List.length_cons, List.length_nil]
    omega

/-- What `awaiting` is for a received row: synced with nothing more, before an unknown instruction; otherwise a legal
decoder one byte short of the frame. -/
theorem awaiting_toHost_cases {i : Instr} (hw : i.wf = true) (hd : i.direction = .toHost) (d : Decoder) :
    (∃ code, acceptedCode code = false ∧ i = .unknownRx code) ∨
      ∃ d' c b, awaiting i d = (d', .feed b) ∧ d'.wf = true ∧ d'.instruction = some c ∧
        encode i = frameHead c ++ (d'.payloadBuf ++ [b]) := by
  cases i with
  | rdReq addr len => cases hd
  | wr addr data => cases hd
  | rdRsp addr data lo hi =>
    exact .inr ⟨_, 3#8, hi, rfl, wf_dataBuffer (.inl rfl) (dataFits_iff.mp hw) addr lo lo, rfl,
      by simp [encode, dataHeader, Config.iRead]⟩
  | fb addr data lo hi =>
    exact .inr ⟨_, 5#8, hi, rfl, wf_dataBuffer (.inr rfl) (dataFits_iff.mp hw) addr lo lo, rfl,
      by simp [encode, dataHeader, Config.iFeedback]⟩
  | alarm level type lo hi => exact .inr ⟨_, 8#8, hi, rfl, by simp [wf_iff, Config.iAlarm], rfl, rfl⟩
  | unknownRx code =>
    rw [wf_unknownRx, Bool.not_eq_true'] at hw
    exact .inl ⟨code, hw, rfl⟩

/-- A received row that is placed runs next, with its last byte in `prev`. -/
theorem step_placeInstr_toHost {i : Instr} (hw : i.wf = true) (hd : i.direction = .toHost) (s : State) :
    ∃ d : Decoder, step (placeInstr i s) = exec i { s with dec := d } ∧ some d.prev = (encode i).getLast? := by
  rcases awaiting_toHost_cases hw hd s.dec with ⟨code, hcode, rfl⟩ | ⟨d, c, b, ha, hwd, hi, henc⟩
  · exact ⟨_, step_feed_unknown (s := placeInstr (.unknownRx code) s) rfl rfl hcode rfl, rfl⟩
  · have hp : placeInstr i s = { s with dec := d, todo := .feed b :: s.todo } := by rw [placeInstr, ha]
    have hdec : decode .toHost (frameHead c ++ (d.payloadBuf ++ [b])) = .ok (i, []) := by
      rw [← henc, ← hd]
      simpa using decodeInvertsEncode i [] hw
    refine ⟨{ d with prev := b, payloadBuf := d.payloadBuf ++ [b] }, ?_, ?_⟩
    · rw [hp]
      exact step_feed_decoded (s := { s with dec := d, todo := .feed b :: s.todo }) hwd hi rfl hdec
    · simp [henc]

/-! ## Whole received rows, fed from hunting -/

/-- Every encoding opens with the marker. -/
theorem encode_eq_cons (i : Instr) : ∃ bytes, encode i = Config.marker0 :: bytes := by
  cases i <;> exact ⟨_, rfl⟩

section

variable {s : State} {i : Instr} {rest : List Txn}

/-- The bytes of a received row, fed from hunting, run it after `None` for every byte but the last
(spec/41_frame_decoder.md sections 3 to 5). -/
theorem runs_encode (hw : i.wf = true) (hd : i.direction = .toHost) (hdw : s.dec.wf = true)
    (hs : s.dec.synced = false) (ht : s.todo = feeds (encode i) ++ rest) :
    ∃ d, some d.prev = (encode i).getLast? ∧
      runs (encode i).length s = exec i (s.afterQuiet d rest ((encode i).length - 1)) := by
  have hdec := decodeInvertsEncode i [] hw
  rw [hd, List.append_nil] at hdec
  rcases encode_toHost_cases hw hd with ⟨code, hcode, rfl⟩ | ⟨c, bytes, hc, henc, he⟩
  · have hmark := runs_marker (rest := .feed code :: rest) hs ht
    refine ⟨_, ?_, (runs_add (n := 1) hmark).trans ((runs_one _).trans
      (step_feed_unknown (rest := rest) rfl ?_ hcode rfl))⟩
    · rfl
    · rw [eq_hunting_of_wf hdw hs]
      rfl
  · rw [henc] at hdec ht ⊢
    obtain ⟨d, hp, hrun⟩ := runs_frame hc hdw hs he hdec ht
    have hne : bytes ≠ [] := by
      rintro rfl
      exact absurd (expectedLenOf_le he).1 (by decide)
    refine ⟨d, ?_, ?_⟩
    · rw [hp, List.getLast?_append_of_ne_nil _ hne]
    · rw [List.length_append, Nat.add_comm]
      exact hrun

/-- The same, the effect written out: one result, the instruction's event, and what it writes; the decoder hunts after
the last byte (spec/41_frame_decoder.md R96 to R101). -/
theorem runs_encode_event (hw : i.wf = true) (hd : i.direction = .toHost) (hdw : s.dec.wf = true)
    (hs : s.dec.synced = false) (ht : s.todo = feeds (encode i) ++ rest) :
    ∃ p, some p = (encode i).getLast? ∧ runs (encode i).length s =
      .next ((s.afterQuiet s.dec rest ((encode i).length - 1)).afterFeed (Decoder.hunting p) (frameEvent i) rest) := by
  obtain ⟨d, hp, hrun⟩ := runs_encode hw hd hdw hs ht
  refine ⟨d.prev, hp, ?_⟩
  rw [hrun, exec_toHost_eq hd]
  rfl

/-- The marker and an unknown instruction, fed from hunting, return `None` and leave the decoder hunting
(spec/41_frame_decoder.md R89). -/
theorem runs_unknown {code : Byte} (hcode : acceptedCode code = false) (hdw : s.dec.wf = true)
    (hs : s.dec.synced = false) (ht : s.todo = feeds (frameHead code) ++ rest) :
    runs 3 s = .next (s.afterQuiet (Decoder.hunting code) rest 3) := by
  obtain ⟨p, hp, hrun⟩ := runs_encode_event (i := .unknownRx code) (by simp [hcode]) rfl hdw hs ht
  obtain rfl : p = code := Option.some.inj hp
  rw [frameEvent, afterFeed_none, afterQuiet_afterQuiet] at hrun
  exact hrun

end

/-! ## Bytes without a marker -/

theorem hasMarker_cons_cons_eq_false {a b : Byte} {bytes : List Byte} :
    hasMarker (a :: b :: bytes) = false ↔
      ¬(a = Config.marker0 ∧ b = Config.marker1) ∧ hasMarker (b :: bytes) = false := by
  simp [hasMarker]

/-- Bytes that hold no adjacent marker pair, the byte before them included, are hunted through without an event
(spec/70_reset_and_hazards.md R136). -/
theorem runs_garbage {bytes : List Byte} {s : State} {rest : List Txn} (hw : s.dec.wf = true)
    (hs : s.dec.synced = false) (hm : hasMarker (s.dec.prev :: bytes) = false) (ht : s.todo = feeds bytes ++ rest) :
    ∃ p, runs bytes.length s = .next (s.afterQuiet (Decoder.hunting p) rest bytes.length) := by
  induction bytes generalizing s with
  | nil =>
    refine ⟨s.dec.prev, ?_⟩
    rw [List.length_nil, runs_zero, ← eq_hunting_of_wf hw hs, State.afterQuiet, List.replicate_zero, List.append_nil]
    rw [feeds_nil, List.nil_append] at ht
    rw [← ht]
  | cons b bytes ih =>
    obtain ⟨hpair, hm'⟩ := hasMarker_cons_cons_eq_false.mp hm
    have hstep : step s = .next (s.afterQuiet (Decoder.hunting b) (feeds bytes ++ rest) 1) := by
      rw [step_feed_hunting hs (rest := feeds bytes ++ rest) ht, decide_eq_false hpair, eq_hunting_of_wf hw hs]
      rfl
    obtain ⟨p, hrun⟩ := ih (s := s.afterQuiet (Decoder.hunting b) (feeds bytes ++ rest) 1) (wf_hunting b) rfl hm' rfl
    exact ⟨p, by rw [List.length_cons, runs_succ_of_next hstep, hrun, afterQuiet_afterQuiet, Nat.add_comm]⟩

/-- Bytes without a marker and then a received row: one result other than `None` at most, that of the last byte
(spec/70_reset_and_hazards.md R136, spec/90_conflicts.md C6). -/
theorem runs_garbage_encode {garbage : List Byte} {i : Instr} {s : State} {rest : List Txn} (hw : i.wf = true)
    (hd : i.direction = .toHost) (hdw : s.dec.wf = true) (hs : s.dec.synced = false)
    (hm : hasMarker (s.dec.prev :: garbage) = false) (ht : s.todo = feeds (garbage ++ encode i) ++ rest) :
    ∃ p, runs (garbage.length + (encode i).length) s =
      .next ((s.afterQuiet s.dec rest (garbage.length + (encode i).length - 1)).afterFeed
        (Decoder.hunting p) (frameEvent i) rest) := by
  rw [feeds_append, List.append_assoc] at ht
  obtain ⟨q, hgarbage⟩ := runs_garbage hdw hs hm ht
  obtain ⟨p, _, hframe⟩ := runs_encode_event (rest := rest)
    (s := s.afterQuiet (Decoder.hunting q) (feeds (encode i) ++ rest) garbage.length) hw hd (wf_hunting q) rfl rfl
  obtain ⟨bytes, hcons⟩ := encode_eq_cons i
  have hlen : 1 ≤ (encode i).length := by
    rw [hcons]
    exact Nat.le_add_left 1 _
  refine ⟨p, ?_⟩
  rw [runs_add hgarbage, hframe, afterQuiet_afterQuiet, Nat.add_sub_assoc hlen]
  rfl

/-! ## Frames back to back -/

@[simp] theorem eventsOf_replicate_none (n : Nat) : eventsOf (List.replicate n (.fed none)) = [] := by
  induction n with
  | zero => rfl
  | succ n ih => rw [List.replicate_succ, eventsOf_none, ih]

/-- Valid frames with nothing between them, fed from hunting, return their events in order, and the decoder hunts
(spec/41_frame_decoder.md R102): each frame leaves the decoder as the next one needs it. -/
theorem runs_frames {frames : List (Instr × Event)} {s : State} {rest : List Txn} (hw : s.dec.wf = true)
    (hs : s.dec.synced = false) (hf : ∀ f ∈ frames, f.1.wf = true ∧ frameEvent f.1 = some f.2)
    (ht : s.todo = feeds (frames.flatMap fun f => encode f.1) ++ rest) :
    ∃ t, runs (frames.flatMap fun f => encode f.1).length s = .next t ∧ t.todo = rest ∧ t.dec.synced = false ∧
      eventsOf t.results = eventsOf s.results ++ frames.map Prod.snd := by
  induction frames generalizing s with
  | nil => exact ⟨s, rfl, ht, hs, (List.append_nil _).symm⟩
  | cons f frames ih =>
    obtain ⟨hiw, he⟩ := hf f List.mem_cons_self
    rw [List.flatMap_cons, feeds_append, List.append_assoc] at ht
    obtain ⟨p, _, hrun⟩ := runs_encode_event hiw (direction_of_frameEvent he) hw hs ht
    obtain ⟨t, hrun', htodo, hhunt, hev⟩ := ih (s := State.afterFeed _ (Decoder.hunting p) _ _) (wf_hunting p) rfl
      (fun g hg => hf g (List.mem_cons_of_mem f hg)) rfl
    refine ⟨t, ?_, htodo, hhunt, ?_⟩
    · rw [List.flatMap_cons, List.length_append, runs_add hrun, hrun']
    · rw [hev, he]
      simp

end Sys2Proof.Machine

/-!
PROOF. The statements about whole frames and streams (spec/41_frame_decoder.md, spec/42_frame_builder.md R114,
spec/70_reset_and_hazards.md).
-/

namespace Sys2Proof

open Machine

/-- Settles O18: a build transaction is its instruction, and the FEED that makes the received bytes one runs it. -/
theorem stepRunsTheDecodedInstruction : Obligations.StepRunsTheDecodedInstruction := by
  intro s rest
  refine ⟨fun _ _ ht => step_cons ht, fun _ _ ht => step_cons ht, fun b i _ ht hs hi _ hd => ?_,
    fun b c i hinv ht hi _ hd => ?_⟩
  · obtain ⟨hb, rfl⟩ := decode_code_cases hd
    exact step_feed_unknown hs hi hb ht
  · obtain ⟨_, _, hw⟩ := (inv_iff s).mp hinv
    rw [List.append_assoc] at hd
    exact step_feed_decoded hw hi ht hd

/-- Settles O19. -/
theorem placedInstructionRunsNext : Obligations.PlacedInstructionRunsNext := by
  intro i s hw
  cases hd : i.direction with
  | toHost =>
    obtain ⟨d, hstep, hp⟩ := step_placeInstr_toHost hw hd s
    exact ⟨d, hstep, nofun, fun _ => hp⟩
  | toDevice =>
    refine ⟨s.dec, ?_, fun _ => rfl, nofun⟩
    cases i with
    | rdReq addr len => exact step_cons (s := placeInstr (.rdReq addr len) s) rfl
    | wr addr data => exact step_cons (s := placeInstr (.wr addr data) s) rfl
    | rdRsp addr data lo hi => cases hd
    | fb addr data lo hi => cases hd
    | alarm level type lo hi => cases hd
    | unknownRx code => cases hd

/-- Settles O40. -/
theorem fedFrameRunsItsInstruction : Obligations.FedFrameRunsItsInstruction := by
  intro i s rest hw hd hinv hs ht
  obtain ⟨_, _, hdw⟩ := (inv_iff s).mp hinv
  exact runs_encode hw hd hdw hs ht

/-- Settles O43. -/
theorem garbageThenFrameGivesOneEvent : Obligations.GarbageThenFrameGivesOneEvent := by
  intro s garbage i e rest hinv hs hm hw he ht
  obtain ⟨_, _, hdw⟩ := (inv_iff s).mp hinv
  obtain ⟨p, hrun⟩ := runs_garbage_encode hw (direction_of_frameEvent he) hdw hs hm ht
  exact ⟨_, hrun, rfl, rfl, by rw [he]; rfl⟩

/-- Settles O44. -/
theorem backToBackFramesAllDecode : Obligations.BackToBackFramesAllDecode := by
  intro frames s rest hinv hs hf ht
  obtain ⟨_, _, hdw⟩ := (inv_iff s).mp hinv
  exact runs_frames hdw hs hf ht

/-- Settles O47: the RESET leaves a hunting decoder, so the rest of the frame is bytes without a marker. -/
theorem frameAfterResetDecodes : Obligations.FrameAfterResetDecodes := by
  intro s tail i e rest _ hm hw he ht
  obtain ⟨u, hreset, hdec, htodo, hres⟩ : ∃ u, step s = .next u ∧ u.dec = Decoder.hunting Config.prevInit ∧
      u.todo = feeds (tail ++ encode i) ++ rest ∧ u.results = s.results ++ [.resetDone] :=
    ⟨_, step_reset (rest := feeds (tail ++ encode i) ++ rest) ht, rfl, rfl, rfl⟩
  obtain ⟨p, hrun⟩ := runs_garbage_encode hw (direction_of_frameEvent he) (by rw [hdec, wf_hunting])
    (by rw [hdec, hunting_synced]) (by rw [hdec]; exact hm) htodo
  refine ⟨_, (runs_succ_of_next hreset).trans hrun, rfl, rfl, ?_⟩
  rw [he, afterFeed_results, afterQuiet_results, hres]
  simp

/-- Settles O45: the three opening bytes are an unknown instruction, and what follows it is bytes without a marker. -/
theorem writeFrameFedBackIsIgnored : Obligations.WriteFrameFedBackIsIgnored := by
  intro s addr data rest hinv hs _ hm ht
  obtain ⟨_, _, hdw⟩ := (inv_iff s).mp hinv
  obtain ⟨tail, henc, hlen⟩ : ∃ tail, encode (.wr addr data) = frameHead Config.iWrite ++ tail ∧
      tail.length = data.length + 4 := ⟨_, List.append_assoc .., by simp⟩
  have hdrop : (encode (.wr addr data)).drop 3 = tail := by
    rw [henc]
    rfl
  rw [henc, feeds_append, List.append_assoc] at ht
  have hhead := runs_unknown (code := Config.iWrite) (by decide) hdw hs ht
  have hm' : hasMarker (Config.iWrite :: tail) = false := by
    rw [hdrop] at hm
    cases tail with
    | nil => rfl
    | cons b bytes => exact hasMarker_cons_cons_eq_false.mpr ⟨fun hc => absurd hc.1 (by decide), hm⟩
  obtain ⟨p, htail⟩ := runs_garbage (s := s.afterQuiet (Decoder.hunting Config.iWrite) (feeds tail ++ rest) 3)
    (wf_hunting _) rfl hm' rfl
  have hrun := (runs_add hhead).trans htail
  rw [afterQuiet_afterQuiet, hlen, show 3 + (data.length + 4) = data.length + 7 by omega] at hrun
  exact ⟨_, hrun, rfl, rfl, rfl, rfl⟩

/-- Settles O46: with `len` 0 the request is the empty response; otherwise its last four bytes are the first of a
payload that `len` makes longer. -/
theorem requestFedBackIsAResponseHeader : Obligations.RequestFedBackIsAResponseHeader := by
  intro s addr len rest hinv hs ht
  obtain ⟨_, _, hdw⟩ := (inv_iff s).mp hinv
  by_cases hl : len = 0
  · subst hl
    have he : frameEvent (rdRspFrame addr []) = some (.readResponse addr []) := if_pos (verdict_iff.mpr ⟨rfl, rfl⟩)
    obtain ⟨p, _, hrun⟩ := runs_encode_event (i := rdRspFrame addr []) rfl rfl hdw hs ht
    rw [he] at hrun
    exact ⟨_, hrun, rfl, rfl, fun _ => ⟨rfl, rfl⟩, fun hne => absurd rfl hne⟩
  · have hpos : len.toNat ≠ 0 := fun h => hl (BitVec.eq_of_toNat_eq h)
    obtain ⟨lo, hi, henc⟩ : ∃ lo hi, encode (.rdReq addr len) = frameHead 3#8 ++ [addr, len, lo, hi] := ⟨_, _, rfl⟩
    rw [henc] at ht ⊢
    have hlen := expectedLenOf_data (.inl rfl : 3#8 = 3#8 ∨ 3#8 = 5#8) addr len [lo, hi]
    have hne : ∀ k, 1 ≤ k → k ≤ [addr, len, lo, hi].length →
        expectedLenOf (some 3#8) ([addr, len, lo, hi].take k) ≠ some k := by
      intro k _ hk
      rcases expectedLenOf_take 3#8 [addr, len, lo, hi] k with h | h
      · rw [h]
        nofun
      · rw [h, hlen, ne_eq, Option.some.injEq]
        simp only [List.length_cons, List.length_nil] at hk
        omega
    obtain ⟨d, hdw', hi', hbuf, hrun⟩ := runs_frameHead_payload (.inl rfl) hdw hs ht hne
    obtain ⟨hsync, _, hexp, _⟩ := wf_some hdw' hi'
    have hphase : phase d = .body := by
      rw [phase_of_data hsync hi' (.inl rfl), hbuf]
      rfl
    exact ⟨_, hrun, rfl, rfl, fun h => absurd h hl,
      fun _ => ⟨hphase, hbuf, by rw [afterQuiet_dec, hexp, hbuf, hlen], rfl⟩⟩

end Sys2Proof
